-- ==== Sys2Proof/Word.lean ====
section
/-! DEFINITION. The machine's datum type (R10, R15: a Word is a 16-bit unsigned value) and the byte
that images are made of (R65, R291). -/

namespace Sys2Proof

/-- A Word: "16-bit unsigned value, the VM's only datum type" (R15). -/
abbrev Word := BitVec 16

/-- A byte of a program image (R65), and the unit memory is stored in. -/
abbrev Byte := BitVec 8

end Sys2Proof
end

