-- ==== Sys2Proof/Config.lean ====
section
/-! DEFINITION. What is fixed for the hardware (R8), the parameters supplied once at startup (R9), the
environment's moves (R230, R243), and the free values: constants with no body that nothing can evaluate. -/

namespace Sys2Proof

/-- MEM_WORDS (R8): memory addresses are `0..32767`. -/
@[simp] abbrev Config.memWords : Nat := 32768

/-- REG_BASE (R8): the Word `32768 + i` denotes register `i`. -/
@[simp] abbrev Config.regBase : Nat := 32768

/-- NUM_REGS (R8). -/
@[simp] abbrev Config.numRegs : Nat := 8

/-- ARITH_MODULUS (R8). -/
@[simp] abbrev Config.arithModulus : Nat := 32768

/-- NOT_MASK (R8). -/
@[simp] abbrev Config.notMask : Word := 0x7FFF

/-- MAX_OPERANDS (R8): the dispatcher always reads three raw operand Words. -/
@[simp] abbrev Config.maxOperands : Nat := 3

/-- OVERSIZE_IMAGE (R9, R292): what the Loader does with an image longer than memory. -/
inductive OversizeImage where
  | truncate
  | reject
  deriving DecidableEq, Repr, Inhabited

/-- The parameters an instruction or the Loader reads (R9). They are supplied once at startup (R42) and
no step changes them. -/
structure Params where
  /-- STACK_LIMIT (R9, R150): none is unbounded. -/
  stackLimit : Option Nat
  /-- INPUT_ALPHABET (R9, R242): the Words `in_give` may hand, as inclusive ranges (first, last). -/
  inputAlphabet : List (Word × Word)
  /-- OVERSIZE_IMAGE (R9, R292). -/
  oversizeImage : OversizeImage
  deriving DecidableEq, Repr

/-- The defaults of R9: no stack limit, characters `0..255`, truncation. -/
def Params.default : Params :=
  { stackLimit := none, inputAlphabet := [(0, 255)], oversizeImage := .truncate }

/-- WATCHDOG_DURATION (R9, R239): an opaque positive configuration value that no rule reads. -/
opaque Config.watchdogDuration : PNat

/-- What the environment does at one step: the host's and the watchdog's events of R230, and the
choice of stopping at a boundary (R121, R130). -/
inductive EnvMove where
  /-- Nothing happens. -/
  | idle
  /-- `out_take`: the host takes the offered Word. -/
  | take
  /-- `in_give`: the host hands one character. -/
  | give (ch : Word)
  /-- `wd_expire`: the watchdog of the current suspension has elapsed (R239). -/
  | expire
  /-- The environment chooses to stop at a boundary with `cancel = 1` (R121). -/
  | stop
  deriving DecidableEq, Repr, Inhabited

/-- FREE VALUE (log entry 2): the environment's move number `n`. -/
opaque Config.envMove : Nat → EnvMove

/-- FREE VALUE (log entry 2): whether the host raises `cancel` at draw number `n` (R40). -/
opaque Config.raisesCancel : Nat → Bool

end Sys2Proof
end

