-- ==== Sys2Proof/WellFormed.lean ====
section
/-! DEFINITION. Which instructions the encoding can express: a literal is at most 32767 (R93, R96);
a register name is one of 8 by its type. -/

namespace Sys2Proof

/-- A literal operand lies in `0..32767` (R93); every register operand is well formed. -/
def Operand.wellFormed : Operand → Bool
  | .lit w => decide (w.toNat < Config.memWords)
  | .reg _ => true

/-- Every used operand is well formed. -/
def Instr.wellFormed (i : Instr) : Bool :=
  i.operands.all Operand.wellFormed

/-- The operand check as a proposition, for statements. -/
abbrev Operand.WellFormed (o : Operand) : Prop := o.wellFormed = true

/-- The instruction check as a proposition, for statements. -/
abbrev Instr.WellFormed (i : Instr) : Prop := i.wellFormed = true

end Sys2Proof
end

