-- ==== Sys2Proof/Decode.lean ====
section
/-! DEFINITION. Decoding a four-Word window (R91, R92, R93, R97, R98), the encoder written from the same
table (R95), and the reading of a table word. -/

namespace Sys2Proof

/-- The four Words the dispatcher reads (R122): the opcode word and the three raw operands. -/
structure Window where
  op : Word
  a : Word
  b : Word
  c : Word
  deriving DecidableEq, Repr

/-- The window's Words in address order. -/
def Window.words (w : Window) : List Word := [w.op, w.a, w.b, w.c]

/-- The window formed by the first four Words of a list; a missing Word is 0. -/
def Window.ofWords (ws : List Word) : Window :=
  ⟨ws.getD 0 0, ws.getD 1 0, ws.getD 2 0, ws.getD 3 0⟩

/-- Why a window is no instruction (R97, R98). -/
inductive DecodeError where
  /-- The opcode word is outside `0..21` (R97 a). -/
  | invalidOpcode
  /-- A used operand slot holds `32776..65535` (R97 b). -/
  | invalidOperand
  deriving DecidableEq, Repr

/-- `Classify` (R125): the register a Word names, if it names one. -/
def classify (w : Word) : Option (Fin 8) :=
  if Config.regBase ≤ w.toNat ∧ w.toNat < Config.regBase + Config.numRegs then
    some (Fin.ofNat 8 (w.toNat - Config.regBase))
  else none

/-- The class of a used operand Word (R93), checked (R124). -/
def decodeOperand (w : Word) : Except DecodeError Operand :=
  match classify w with
  | some i => .ok (.reg i)
  | none => if w.toNat < Config.memWords then .ok (.lit w) else .error .invalidOperand

/-- Format F1 (R90): the slot `a` is used. -/
def decodeF1 (mk : Operand → Instr) (w : Window) : Except DecodeError Instr :=
  match decodeOperand w.a with
  | .error e => .error e
  | .ok a => .ok (mk a)

/-- Format F2 (R90): the slots `a` and `b` are used, checked in that order (R124). -/
def decodeF2 (mk : Operand → Operand → Instr) (w : Window) : Except DecodeError Instr :=
  match decodeOperand w.a with
  | .error e => .error e
  | .ok a =>
    match decodeOperand w.b with
    | .error e => .error e
    | .ok b => .ok (mk a b)

/-- Format F3 (R90): all three slots are used, checked in order (R124). -/
def decodeF3 (mk : Operand → Operand → Operand → Instr) (w : Window) : Except DecodeError Instr :=
  match decodeOperand w.a with
  | .error e => .error e
  | .ok a =>
    match decodeOperand w.b with
    | .error e => .error e
    | .ok b =>
      match decodeOperand w.c with
      | .error e => .error e
      | .ok c => .ok (mk a b c)

/-- Decoding, total on every window (R98): the opcode is the whole raw word (R92), looked up in the map
of R95; the opcode numbers are the public ones (PRESUMED by the spec, G1; log entry 3). -/
def decode (w : Window) : Except DecodeError Instr :=
  match w.op.toNat with
  | 0 => .ok .halt
  | 1 => decodeF2 .set w
  | 2 => decodeF1 .push w
  | 3 => decodeF1 .pop w
  | 4 => decodeF3 .eq w
  | 5 => decodeF3 .gt w
  | 6 => decodeF1 .jmp w
  | 7 => decodeF2 .jt w
  | 8 => decodeF2 .jf w
  | 9 => decodeF3 .add w
  | 10 => decodeF3 .mult w
  | 11 => decodeF3 .mod w
  | 12 => decodeF3 .and w
  | 13 => decodeF3 .or w
  | 14 => decodeF2 .not w
  | 15 => decodeF2 .rmem w
  | 16 => decodeF2 .wmem w
  | 17 => decodeF1 .call w
  | 18 => .ok .ret
  | 19 => decodeF1 .out w
  | 20 => decodeF1 .inp w
  | 21 => .ok .noop
  | _ => .error .invalidOpcode

/-- The opcode of an instruction (R95). -/
def Instr.opcode : Instr → Word
  | .halt => 0
  | .set _ _ => 1
  | .push _ => 2
  | .pop _ => 3
  | .eq _ _ _ => 4
  | .gt _ _ _ => 5
  | .jmp _ => 6
  | .jt _ _ => 7
  | .jf _ _ => 8
  | .add _ _ _ => 9
  | .mult _ _ _ => 10
  | .mod _ _ _ => 11
  | .and _ _ _ => 12
  | .or _ _ _ => 13
  | .not _ _ => 14
  | .rmem _ _ => 15
  | .wmem _ _ => 16
  | .call _ => 17
  | .ret => 18
  | .out _ => 19
  | .inp _ => 20
  | .noop => 21

/-- The mnemonic of an instruction (R95). -/
def Instr.mnemonic : Instr → String
  | .halt => "HALT"
  | .set _ _ => "SET"
  | .push _ => "PUSH"
  | .pop _ => "POP"
  | .eq _ _ _ => "EQ"
  | .gt _ _ _ => "GT"
  | .jmp _ => "JMP"
  | .jt _ _ => "JT"
  | .jf _ _ => "JF"
  | .add _ _ _ => "ADD"
  | .mult _ _ _ => "MULT"
  | .mod _ _ _ => "MOD"
  | .and _ _ _ => "AND"
  | .or _ _ _ => "OR"
  | .not _ _ => "NOT"
  | .rmem _ _ => "RMEM"
  | .wmem _ _ => "WMEM"
  | .call _ => "CALL"
  | .ret => "RET"
  | .out _ => "OUT"
  | .inp _ => "IN"
  | .noop => "NOOP"

/-- The number of operand Words an opcode takes (the arity column of R95); none for an illegal one. -/
def arityOf (op : Word) : Option Nat :=
  if op.toNat ∈ [0, 18, 21] then some 0
  else if op.toNat ∈ [2, 3, 6, 17, 19, 20] then some 1
  else if op.toNat ∈ [1, 7, 8, 14, 15, 16] then some 2
  else if op.toNat ∈ [4, 5, 9, 10, 11, 12, 13] then some 3
  else none

/-- The instruction's length in Words (R90). -/
def Instr.length (i : Instr) : Nat := 1 + i.operands.length

/-- The Word of an operand (R93): a literal is itself, register `i` is `32768 + i`. -/
def encodeOperand : Operand → Word
  | .lit w => w
  | .reg i => BitVec.ofNat 16 (Config.regBase + i.val)

/-- The Words of an instruction, opcode first (R90, R95). -/
def encode (i : Instr) : List Word :=
  i.opcode :: i.operands.map encodeOperand

/-- The window an instruction has whose first `nbits` bits are `w`, bit 0 the least significant bit of
the first Word and every further bit 0. -/
def Window.ofTableWord (nbits w : Nat) : Window :=
  let v := w % 2 ^ nbits
  ⟨BitVec.ofNat 16 v, BitVec.ofNat 16 (v / 2 ^ 16), BitVec.ofNat 16 (v / 2 ^ 32),
    BitVec.ofNat 16 (v / 2 ^ 48)⟩

/-- The instruction the decoder reads from a word of the opcode table; none where it refuses. -/
def decodeTableWord (nbits w : Nat) : Option Instr :=
  match decode (Window.ofTableWord nbits w) with
  | .ok i => some i
  | .error _ => none

end Sys2Proof
end

