-- ==== Sys2Proof/Machine/State.lean ====
section
/-! DEFINITION. The state of the machine (R43), the reasons it stops, and the state after reset (R44). -/

namespace Sys2Proof.Machine

/-- Memory (R33): the bytes that differ from `Memory.unlisted`, addresses strictly rising. Word `k` is
bytes `2k` (bits 7:0) and `2k + 1` (bits 15:8), the Loader's byte order (R65; log entry 1). -/
abbrev Memory := List Host.Cell

/-- What an unlisted byte reads as: memory is "zero-initialized" (R33, R44). -/
abbrev Memory.unlisted : Byte := 0

/-- The canonical form: addresses strictly rising, inside the 32768 Words, no entry equal to what an
unlisted address reads as. -/
abbrev Memory.wf (m : Memory) : Prop :=
  m.Pairwise (fun c d => c.1 < d.1) ∧
    ∀ c ∈ m, c.2 ≠ Memory.unlisted ∧ c.1 < 2 * Config.memWords

/-- Why a run ended cleanly (R35, R36). -/
inductive HaltReason where
  /-- HALT (R200). -/
  | haltInstruction
  /-- RET on an empty stack (R205). -/
  | emptyReturn
  /-- The cancellation signal (R121, R237). -/
  | cancelled
  deriving DecidableEq, Repr

/-- The kinds of `raise Fault(kind)` (R261). -/
inductive FaultKind where
  /-- POP on an empty stack (R262). -/
  | underflow
  /-- An opcode word above 21 (R263). -/
  | invalidOpcode
  /-- The watchdog of an OUT or IN elapsed (R264). -/
  | ioWatchdogTimeout
  /-- A used operand Word above 32775 (R265). -/
  | invalidOperand
  /-- RMEM or WMEM at a resolved address above 32767 (R266). -/
  | memoryOutOfRange
  /-- A fetch with `pc` above 32764 (R267). -/
  | fetchOutOfRange
  /-- MOD by zero (R268). -/
  | divideByZero
  /-- PUSH or CALL with the stack at STACK_LIMIT (R269). -/
  | stackOverflow
  deriving DecidableEq, Repr

/-- The run state (R35). -/
inductive RunState where
  | running
  | halted (reason : HaltReason)
  | faulted (kind : FaultKind)
  deriving DecidableEq, Repr

/-- The suspended rendezvous of the instruction at `pc` (R39). -/
inductive IoWait where
  | none
  /-- OUT waiting to hand over a Word. -/
  | waitSend (v : Word)
  /-- IN waiting for a character to store through its destination operand. -/
  | waitReceive (d : Operand)
  deriving DecidableEq, Repr

/-- The architectural state (R43), the host's `cancel` input (R40), the startup parameters (R9), and the
model's own three fields: `envMove`, `tick` (log entry 2) and `output` (log entry 5). -/
structure State where
  /-- Memory (R33). -/
  mem : Memory
  /-- The registers `r0..r7` (R30). -/
  x : Vector Word 8
  /-- The program counter (R32). -/
  pc : Word
  /-- The stack, bottom first (R34). -/
  stack : List Word
  /-- The run state (R35). -/
  run : RunState
  /-- The suspended rendezvous (R39). -/
  ioWait : IoWait
  /-- Whether the output is closed (R38). -/
  outClosed : Bool
  /-- The host's cancellation input, level-triggered (R40). -/
  cancel : Bool
  /-- The model's own: the environment's move at the coming step. -/
  envMove : EnvMove
  /-- The model's own: the number of environment draws made. -/
  tick : Nat
  /-- The model's own: the Words sent by completed OUTs, oldest first (R132). -/
  output : List Word
  /-- The parameters supplied once at startup (R9). -/
  params : Params
  deriving DecidableEq, Repr

/-- Why a step has no next state. Both are raised by `step` alone, in a terminal state, which "has no
transition" (R35, R120); no instruction's meaning raises one. -/
inductive Fault where
  /-- Raised by `step` where the run ended cleanly. Safe: the spec has no transition there. -/
  | halted (reason : HaltReason)
  /-- Raised by `step` where the run ended by a fault. Safe: the spec has no transition there. -/
  | faulted (kind : FaultKind)
  deriving DecidableEq, Repr

/-- Why a step has no meaning. -/
inductive Refusal where
  /-- An arm of `exec` not written yet would raise it. Safe: nothing can be proved of it. No arm does. -/
  | notModelled (mnemonic : String)
  deriving DecidableEq, Repr

/-- The machine after reset with nothing loaded (R44). `cancel` is "whatever the host drives": false
here (DESIGN CHOICE, log entry 4), as are the model's own `envMove` and `tick`. -/
def State.reset : State where
  mem := []
  x := Vector.replicate 8 0
  pc := 0
  stack := []
  run := .running
  ioWait := .none
  outClosed := false
  cancel := false
  envMove := .idle
  tick := 0
  output := []
  params := Params.default

end Sys2Proof.Machine
end

