-- ==== Sys2Proof/Machine/Ops.lean ====
section
/-! DEFINITION. The named operations: bytes and Words of memory, registers, the stack engine, the program
counter, ending a run (`halt`, R37; `raise`, R260), and drawing the environment's next move. -/

namespace Sys2Proof.Machine

/-! ### Memory -/

/-- One byte of memory. -/
def Memory.readByte : Memory → Nat → Byte
  | [], _ => Memory.unlisted
  | (a', b) :: m, a => if a = a' then b else Memory.readByte m a

/-- Memory with nothing listed at an address. -/
def Memory.without (m : Memory) (a : Nat) : Memory := m.filter fun c => decide (c.1 ≠ a)

/-- Memory with an entry put in address order. -/
def Memory.insertCell : Memory → Nat → Byte → Memory
  | [], a, b => [(a, b)]
  | c :: m, a, b => if a < c.1 then (a, b) :: c :: m else c :: Memory.insertCell m a b

/-- Write one byte, keeping the canonical form: what an unlisted address reads as is not listed. -/
def Memory.writeByte (m : Memory) (a : Nat) (b : Byte) : Memory :=
  if b = Memory.unlisted then Memory.without m a
  else Memory.insertCell (Memory.without m a) a b

/-- Bits 7:0 of a Word (R65). -/
def lowByte (v : Word) : Byte := BitVec.ofNat 8 (v.toNat % 256)

/-- Bits 15:8 of a Word (R65). -/
def highByte (v : Word) : Byte := BitVec.ofNat 8 (v.toNat / 256)

/-- The Word of two image bytes, little-endian (R65): `lo + 256 * hi`. -/
def joinBytes (lo hi : Byte) : Word := BitVec.ofNat 16 (lo.toNat + 256 * hi.toNat)

/-- The Word at a word address (R60). -/
def Memory.readWord (m : Memory) (k : Nat) : Word :=
  joinBytes (m.readByte (2 * k)) (m.readByte (2 * k + 1))

/-- Write the Word at a word address. -/
def Memory.writeWord (m : Memory) (k : Nat) (v : Word) : Memory :=
  (m.writeByte (2 * k) (lowByte v)).writeByte (2 * k + 1) (highByte v)

/-! ### One update per field -/

/-- Replace memory. -/
def State.withMem (m : Memory) (s : State) : State := { s with mem := m }

/-- `x[i] <- v` (R12). -/
def State.withReg (i : Fin 8) (v : Word) (s : State) : State := { s with x := s.x.set i.val v }

/-- `pc <- target` (R12). -/
def State.withPc (target : Word) (s : State) : State := { s with pc := target }

/-- Replace the stack. -/
def State.withStack (st : List Word) (s : State) : State := { s with stack := st }

/-- Set the suspended rendezvous (R39). -/
def State.withWait (w : IoWait) (s : State) : State := { s with ioWait := w }

/-- The host receives `v`: it joins the output sequence (R132). -/
def State.emit (v : Word) (s : State) : State := { s with output := s.output ++ [v] }

/-- `x[i]` (R12). -/
def State.reg (s : State) (i : Fin 8) : Word := s.x[i.val]

/-! ### Accesses of an instruction -/

/-- `MemRead(addr, 1)` with the bounds check of R64. -/
def memRead (addr : Word) (s : State) : Except FaultKind Word :=
  if addr.toNat < Config.memWords then .ok (s.mem.readWord addr.toNat)
  else .error .memoryOutOfRange

/-- `MemWrite(addr, 1, v)` with the bounds check of R64. -/
def memWrite (addr v : Word) (s : State) : Except FaultKind State :=
  if addr.toNat < Config.memWords then .ok (s.withMem (s.mem.writeWord addr.toNat v))
  else .error .memoryOutOfRange

/-- `Push(v)` (R150). -/
def push (v : Word) (s : State) : Except FaultKind State :=
  if s.params.stackLimit = some s.stack.length then .error .stackOverflow
  else .ok (s.withStack (s.stack ++ [v]))

/-- `Pop()` (R151): the top Word, which is the last, and the state without it. -/
def pop (s : State) : Except FaultKind (Word × State) :=
  match s.stack.getLast? with
  | none => .error .underflow
  | some v => .ok (v, s.withStack s.stack.dropLast)

/-- `StackEmpty()` (R152). -/
def stackEmpty (s : State) : Bool := s.stack.isEmpty

/-- The address of the Word `n` after the instruction's opcode, computed on naturals (R128). -/
def State.pcPlus (s : State) (n : Nat) : Word := BitVec.ofNat 16 (s.pc.toNat + n)

/-- Apply a returned advance `n`: `pc <- pc + n` (R128). -/
def State.advance (n : Nat) (s : State) : State := s.withPc (s.pcPlus n)

/-! ### Ending a run -/

/-- `Halt(reason)` (R37). -/
def State.halt (r : HaltReason) (s : State) : State :=
  { s with run := .halted r, outClosed := true }

/-- `raise Fault(kind)` (R260): the shared operation of every fault. It is precise: applied to the state
at the boundary (or the suspension), it leaves registers, memory, stack and `pc` as they are there.
There is no handler and no return (R272). -/
def State.raise (k : FaultKind) (s : State) : State :=
  { s with run := .faulted k, ioWait := .none, outClosed := true }

/-- The state an instruction leaves: what it computed, or its fault raised in the state `s` it started
from (R260). -/
def commit (s : State) (r : Except FaultKind State) : State :=
  match r with
  | .ok t => t
  | .error k => s.raise k

/-- The outcome of an instruction whose checks and effect are `r`. -/
def settle (s : State) (r : Except FaultKind State) : Host.Outcome State Fault Refusal :=
  .next (commit s r)

/-! ### The environment -/

/-- Draw the environment's next move, and let `cancel` rise but never fall (R40, R240; log entry 2). -/
def State.pollEnv (s : State) : State :=
  { s with
    cancel := s.cancel || Config.raisesCancel s.tick
    envMove := Config.envMove s.tick
    tick := s.tick + 1 }

/-- Apply a function to the state of an outcome that has one. -/
def onNext (f : State → State) (o : Host.Outcome State Fault Refusal) :
    Host.Outcome State Fault Refusal :=
  match o with
  | .next s => .next (f s)
  | .fault r => .fault r
  | .refused r => .refused r

end Sys2Proof.Machine
end

