-- ==== Sys2Proof/Machine/Operands.lean ====
section
/-! DEFINITION. The address resolver (R125 to R127) over classified operands: the roles V, A and T read
through `resolve`, the role D is used through `writeTo` (R94). -/

namespace Sys2Proof.Machine

/-- `Resolve` (R126): a register's contents, or the literal itself. -/
def resolve (o : Operand) (s : State) : Word :=
  match o with
  | .lit w => w
  | .reg i => s.reg i

/-- `WriteTo` (R127): a register destination takes the Word, a literal destination is a memory address.
A well-formed literal is always inside memory (R64). -/
def writeTo (d : Operand) (v : Word) (s : State) : Except FaultKind State :=
  match d with
  | .reg i => .ok (s.withReg i v)
  | .lit w => memWrite w v s

/-- The end shared by the instructions that store one result: `WriteTo(d, v)`, then advance `n`. -/
def storeAdvance (d : Operand) (v : Word) (n : Nat) (s : State) : Except FaultKind State :=
  (writeTo d v s).map (State.advance n)

end Sys2Proof.Machine
end

