-- ==== Sys2Proof/Machine/Gateway.lean ====
section
/-! DEFINITION. The I/O gateway (R230 to R243): the rendezvous and its three racing outcomes, OUT and IN.
A suspension ends in the step in which one of its outcomes happens; it may begin and end in one step
(R236 and D24 allow both; log entry 2). -/

namespace Sys2Proof.Machine

/-- Whether a Word is in INPUT_ALPHABET (R242). -/
def admits (p : Params) (ch : Word) : Bool :=
  p.inputAlphabet.any fun r => decide (r.1.toNat ≤ ch.toNat ∧ ch.toNat ≤ r.2.toNat)

/-- Outcome Complete of a send (R236 a, R233): the host receives `v`, advance 2. -/
def completeSend (v : Word) (s : State) : State :=
  ((s.emit v).withWait .none).advance 2

/-- Outcome Complete of a receive (R236 a, R234): `WriteTo(d, ch)`, advance 2. -/
def completeReceive (d : Operand) (ch : Word) (s : State) : State :=
  commit s (storeAdvance d ch 2 (s.withWait .none))

/-- Outcome Timeout (R236 c, R238). -/
def timeout (s : State) : State := s.raise .ioWatchdogTimeout

/-- Neither completion nor timeout happens: outcome Cancel where `cancel = 1` (R236 b, R237), else the
suspension persists. -/
def unserved (s : State) : State :=
  if s.cancel then (s.withWait .none).halt .cancelled else s

/-- One step of a suspension (R236): the environment's move picks among the enabled outcomes. A move
that does not match the suspension, or a character outside INPUT_ALPHABET, is no move (R235, R243). -/
def rendezvous (s : State) : State :=
  match s.ioWait with
  | .none => s
  | .waitSend v =>
    match s.envMove with
    | .take => completeSend v s
    | .expire => timeout s
    | .give _ => unserved s
    | .idle => unserved s
    | .stop => unserved s
  | .waitReceive d =>
    match s.envMove with
    | .give ch => if admits s.params ch then completeReceive d ch s else unserved s
    | .expire => timeout s
    | .take => unserved s
    | .idle => unserved s
    | .stop => unserved s

/-- `Send(v)` (R231). -/
def send (v : Word) (s : State) : State := rendezvous (s.withWait (.waitSend v))

/-- `Receive()` of an IN with destination `d` (R232). -/
def receive (d : Operand) (s : State) : State := rendezvous (s.withWait (.waitReceive d))

/-- OUT `a` (R233): the full resolved Word is sent (D10). -/
def execOut (a : Operand) (s : State) : Host.Outcome State Fault Refusal :=
  .next (send (resolve a s) s)

/-- IN `a` (R234). -/
def execIn (a : Operand) (s : State) : Host.Outcome State Fault Refusal :=
  .next (receive a s)

end Sys2Proof.Machine
end

