-- ==== Sys2Proof/Machine/Cycle.lean ====
section
/-! DEFINITION. The instruction cycle around the handlers (R120 to R124, R130, R271): what a state does
next, fetch, decode, and placing an instruction where the next fetch finds it. -/

namespace Sys2Proof.Machine

/-- Fetch (R122): the four-Word window at `pc`, or FetchOutOfRange before anything is read. -/
def fetch (s : State) : Except FaultKind Window :=
  if s.pc.toNat > Config.memWords - 1 - Config.maxOperands then .error .fetchOutOfRange
  else .ok
    { op := s.mem.readWord s.pc.toNat
      a := s.mem.readWord (s.pc.toNat + 1)
      b := s.mem.readWord (s.pc.toNat + 2)
      c := s.mem.readWord (s.pc.toNat + 3) }

/-- The fault of a window that is no instruction (R97). -/
def decodeFault : DecodeError → FaultKind
  | .invalidOpcode => .invalidOpcode
  | .invalidOperand => .invalidOperand

/-- Fetch, opcode check and operand check, in that order (R130, R271). -/
def fetchInstr (s : State) : Except FaultKind Instr :=
  match fetch s with
  | .error k => .error k
  | .ok w =>
    match decode w with
    | .error e => .error (decodeFault e)
    | .ok i => .ok i

/-- Whether the environment takes the boundary stop, which needs `cancel = 1` (R121). -/
def stopsAtBoundary (s : State) : Bool := s.cancel && decide (s.envMove = .stop)

/-- What a state does in the coming step. -/
inductive Turn where
  /-- A terminal state: no transition. -/
  | stop (f : Fault)
  /-- The step is decided without running a handler. -/
  | settled (t : State)
  /-- A boundary at which the instruction begins. -/
  | issue (i : Instr)
  deriving DecidableEq, Repr

/-- The cycle up to the handler (R120, R130): terminal states stop, a suspension takes its outcome, and
a boundary takes its cancellation stop, its fault of fetch or decode, or begins an instruction (R271). -/
def turn (s : State) : Turn :=
  match s.run with
  | .halted r => .stop (.halted r)
  | .faulted k => .stop (.faulted k)
  | .running =>
    if s.ioWait ≠ .none then .settled (rendezvous s)
    else if stopsAtBoundary s then .settled (s.halt .cancelled)
    else
      match fetchInstr s with
      | .error k => .settled (s.raise k)
      | .ok i => .issue i

/-- Store a window's four Words from a word address on. -/
def placeWindow (m : Memory) (k : Nat) (w : Window) : Memory :=
  (((m.writeWord k w.op).writeWord (k + 1) w.a).writeWord (k + 2) w.b).writeWord (k + 3) w.c

/-- Make the next step begin the instruction of a window: a boundary (R120) with no boundary stop, the
window stored at `pc`, which becomes 0 only where no instruction can be fetched from it (log entry 8). -/
def placeNext (w : Window) (s : State) : State :=
  let k := if s.pc.toNat > Config.memWords - 1 - Config.maxOperands then 0 else s.pc.toNat
  { s with
    mem := placeWindow s.mem k w
    pc := BitVec.ofNat 16 k
    run := .running
    ioWait := .none
    outClosed := match s.run with | .running => s.outClosed | _ => false
    envMove := if s.envMove = .stop then .idle else s.envMove }

end Sys2Proof.Machine
end

