-- ==== Sys2Proof/Machine/Flags.lean ====
section
/-! DEFINITION. The core has no condition codes (R41): a comparison writes 1 or 0 into its destination,
and JT and JF test a Word. These are the Words and the test. -/

namespace Sys2Proof.Machine

/-- The Word a truth value is written as: 1 or 0 (R41). -/
def boolWord (t : Bool) : Word := if t then 1 else 0

/-- Whether JT takes a Word as true: any non-zero value (R202). -/
def truthy (v : Word) : Bool := decide (v.toNat ≠ 0)

/-- EQ's result (R171). -/
def eqWord (b c : Word) : Word := boolWord (decide (b = c))

/-- GT's result, an unsigned 16-bit comparison (R172). -/
def gtWord (b c : Word) : Word := boolWord (decide (b.toNat > c.toNat))

end Sys2Proof.Machine
end

