-- ==== Sys2Proof/Machine/Alu.lean ====
section
/-! DEFINITION. The ALU (R170 to R179): its operations on resolved Words, computed exactly on naturals and
reduced only where the rule says so (R11), and EQ, GT, ADD, MULT, MOD, AND, OR, NOT. -/

namespace Sys2Proof.Machine

/-- `(B + C) mod 32768` (R173). -/
def addWord (b c : Word) : Word := BitVec.ofNat 16 ((b.toNat + c.toNat) % Config.arithModulus)

/-- `(B * C) mod 32768`, the product exact (R174). -/
def multWord (b c : Word) : Word := BitVec.ofNat 16 ((b.toNat * c.toNat) % Config.arithModulus)

/-- `B mod C`, not reduced mod 32768 (R175; 90_conflicts.md C3); a zero divisor faults. -/
def modWord (b c : Word) : Except FaultKind Word :=
  if c.toNat = 0 then .error .divideByZero else .ok (BitVec.ofNat 16 (b.toNat % c.toNat))

/-- 16-bit bitwise AND, not masked (R176). -/
def andWord (b c : Word) : Word := b &&& c

/-- 16-bit bitwise OR, not masked (R177). -/
def orWord (b c : Word) : Word := b ||| c

/-- Complement masked to 15 bits (R178). -/
def notWord (b : Word) : Word := ~~~b &&& Config.notMask

/-- EQ `a, b, c` (R171). -/
def execEq (a b c : Operand) (s : State) : Host.Outcome State Fault Refusal :=
  settle s (storeAdvance a (eqWord (resolve b s) (resolve c s)) 4 s)

/-- GT `a, b, c` (R172). -/
def execGt (a b c : Operand) (s : State) : Host.Outcome State Fault Refusal :=
  settle s (storeAdvance a (gtWord (resolve b s) (resolve c s)) 4 s)

/-- ADD `a, b, c` (R173). -/
def execAdd (a b c : Operand) (s : State) : Host.Outcome State Fault Refusal :=
  settle s (storeAdvance a (addWord (resolve b s) (resolve c s)) 4 s)

/-- MULT `a, b, c` (R174). -/
def execMult (a b c : Operand) (s : State) : Host.Outcome State Fault Refusal :=
  settle s (storeAdvance a (multWord (resolve b s) (resolve c s)) 4 s)

/-- MOD `a, b, c` (R175): by zero, a fault and no write. -/
def execMod (a b c : Operand) (s : State) : Host.Outcome State Fault Refusal :=
  settle s ((modWord (resolve b s) (resolve c s)).bind fun v => storeAdvance a v 4 s)

/-- AND `a, b, c` (R176). -/
def execAnd (a b c : Operand) (s : State) : Host.Outcome State Fault Refusal :=
  settle s (storeAdvance a (andWord (resolve b s) (resolve c s)) 4 s)

/-- OR `a, b, c` (R177). -/
def execOr (a b c : Operand) (s : State) : Host.Outcome State Fault Refusal :=
  settle s (storeAdvance a (orWord (resolve b s) (resolve c s)) 4 s)

/-- NOT `a, b` (R178). -/
def execNot (a b : Operand) (s : State) : Host.Outcome State Fault Refusal :=
  settle s (storeAdvance a (notWord (resolve b s)) 3 s)

end Sys2Proof.Machine
end

