-- ==== Sys2Proof/Machine/Control.lean ====
section
/-! DEFINITION. HALT, JMP, JT, JF, CALL, RET and NOOP (R200 to R208). A target is not checked here: one
above 32764 faults at the next fetch (R207). -/

namespace Sys2Proof.Machine

/-- A conditional jump: to the target, or past the instruction's 3 Words (R202, R203; C1). -/
def jumpIf (taken : Bool) (target : Word) (s : State) : State :=
  if taken then s.withPc target else s.advance 3

/-- HALT (R200): `pc` stays at the HALT. -/
def execHalt (s : State) : Host.Outcome State Fault Refusal :=
  .next (s.halt .haltInstruction)

/-- JMP `a` (R201). -/
def execJmp (a : Operand) (s : State) : Host.Outcome State Fault Refusal :=
  .next (s.withPc (resolve a s))

/-- JT `a, b` (R202). -/
def execJt (a b : Operand) (s : State) : Host.Outcome State Fault Refusal :=
  .next (jumpIf (truthy (resolve a s)) (resolve b s) s)

/-- JF `a, b` (R203). -/
def execJf (a b : Operand) (s : State) : Host.Outcome State Fault Refusal :=
  .next (jumpIf (!truthy (resolve a s)) (resolve b s) s)

/-- CALL `a` (R204): the target is read before the push of the address after the instruction. -/
def execCall (a : Operand) (s : State) : Host.Outcome State Fault Refusal :=
  settle s ((push (s.pcPlus 2) s).map (State.withPc (resolve a s)))

/-- RET (R205): on an empty stack a clean halt, never Underflow. -/
def execRet (s : State) : Host.Outcome State Fault Refusal :=
  if stackEmpty s then .next (s.halt .emptyReturn)
  else settle s ((pop s).map fun r => r.2.withPc r.1)

/-- NOOP (R206). -/
def execNoop (s : State) : Host.Outcome State Fault Refusal :=
  .next (s.advance 1)

end Sys2Proof.Machine
end

