-- ==== Sys2Proof/Machine/Data.lean ====
section
/-! DEFINITION. SET, PUSH, POP, RMEM and WMEM (R153 to R157). -/

namespace Sys2Proof.Machine

/-- SET `a, b` (R153). -/
def execSet (a b : Operand) (s : State) : Host.Outcome State Fault Refusal :=
  settle s (storeAdvance a (resolve b s) 3 s)

/-- PUSH `a` (R154). -/
def execPush (a : Operand) (s : State) : Host.Outcome State Fault Refusal :=
  settle s ((push (resolve a s) s).map (State.advance 2))

/-- POP `a` (R155): on an empty stack nothing is written. -/
def execPop (a : Operand) (s : State) : Host.Outcome State Fault Refusal :=
  settle s ((pop s).bind fun r => storeAdvance a r.1 2 r.2)

/-- RMEM `a, b` (R156): the source operand's value is the address. -/
def execRmem (a b : Operand) (s : State) : Host.Outcome State Fault Refusal :=
  settle s ((memRead (resolve b s) s).bind fun v => storeAdvance a v 3 s)

/-- WMEM `a, b` (R157): the destination operand's value is the address; never a register. -/
def execWmem (a b : Operand) (s : State) : Host.Outcome State Fault Refusal :=
  settle s ((memWrite (resolve a s) (resolve b s) s).map (State.advance 3))

end Sys2Proof.Machine
end

