-- ==== Sys2Proof/Machine/Step.lean ====
section
/-! DEFINITION. One step of the machine (R130), and the placing of one instruction where it is fetched. -/

namespace Sys2Proof.Machine

/-- One step (R130): the turn of the state, its handler where it begins an instruction, and then the
environment's next move. A terminal state has no step (R35). -/
def step (s : State) : Host.Outcome State Fault Refusal :=
  match turn s with
  | .stop f => .fault f
  | .settled t => .next t.pollEnv
  | .issue i => onNext State.pollEnv (exec i s)

/-- `s` with the instruction whose first `nbits` bits are `w` stored where the next step fetches it. -/
def State.withFetchWord (s : State) (nbits w : Nat) : State :=
  placeNext (Window.ofTableWord nbits w) s

end Sys2Proof.Machine
end

