-- ==== Sys2Proof/Machine/Loader.lean ====
section
/-! DEFINITION. The Loader's contract with memory (R290 to R292, R270): how a program comes to stand in
memory before the first boundary. -/

namespace Sys2Proof.Machine

/-- What the host supplies as the program image (R290). -/
inductive Image where
  /-- The raw bytes read. -/
  | bytes (bs : List Byte)
  /-- The image cannot be read (R270). -/
  | unreadable
  deriving DecidableEq, Repr

/-- Why execution never starts (R270, R292). -/
inductive LoadError where
  | unreadable
  | oddLength
  | oversize
  deriving DecidableEq, Repr

/-- The Words of an image: byte pairs, little-endian (R291). -/
def wordsOfBytes : List Byte → List Word
  | lo :: hi :: rest => joinBytes lo hi :: wordsOfBytes rest
  | _ => []

/-- Store Words from a word address on. -/
def storeWords (m : Memory) (k : Nat) : List Word → Memory
  | [] => m
  | w :: ws => storeWords (m.writeWord k w) (k + 1) ws

/-- The state with an image's bytes loaded from address 0 (R290, R291), `cancel` and the environment's
first move as the host drives them (R44). -/
def loadedState (p : Params) (cancel : Bool) (move : EnvMove) (bs : List Byte) : State :=
  { State.reset with
    mem := storeWords [] 0 (wordsOfBytes bs)
    cancel := cancel
    envMove := move
    params := p }

/-- Load an image (R291, R292). An oversized image under Truncate loads its first 32768 Words, whatever
its length's parity (DESIGN CHOICE, log entry 7). -/
def load (p : Params) (cancel : Bool) (move : EnvMove) (img : Image) : Except LoadError State :=
  match img with
  | .unreadable => .error .unreadable
  | .bytes bs =>
    if bs.length > 2 * Config.memWords then
      match p.oversizeImage with
      | .truncate => .ok (loadedState p cancel move (bs.take (2 * Config.memWords)))
      | .reject => .error .oversize
    else if bs.length % 2 = 1 then .error .oddLength
    else .ok (loadedState p cancel move bs)

end Sys2Proof.Machine
end

