-- ==== Sys2Proof/Machine/Observe.lean ====
section
/-! DEFINITION. What the host sees of the core without changing it: the ports `status`, `out_data` and
`in_req` (R230, R261) and the record of the optional diagnostic trace (R251). No rule reads them. -/

namespace Sys2Proof.Machine

/-- The status code of a fault kind (R261). -/
def faultCode : FaultKind → Nat
  | .underflow => 16
  | .invalidOpcode => 17
  | .ioWatchdogTimeout => 18
  | .invalidOperand => 19
  | .memoryOutOfRange => 20
  | .fetchOutOfRange => 21
  | .divideByZero => 22
  | .stackOverflow => 23

/-- The status code of a run state (R261). -/
def runCode : RunState → Nat
  | .running => 0
  | .halted .haltInstruction => 1
  | .halted .emptyReturn => 2
  | .halted .cancelled => 3
  | .faulted k => faultCode k

/-- The port `status` (R42, R230). -/
def State.status (s : State) : Nat := runCode s.run

/-- The status code of a load that failed: no run (R261, R270). -/
def loadErrorCode (_ : LoadError) : Nat := 31

/-- The port `out_data`: the Word OUT offers while it waits (R230). -/
def State.outData (s : State) : Option Word :=
  match s.ioWait with
  | .waitSend v => some v
  | .none => none
  | .waitReceive _ => none

/-- The port `in_req`: whether IN waits for a character (R230). -/
def State.inReq (s : State) : Bool :=
  match s.ioWait with
  | .waitReceive _ => true
  | .none => false
  | .waitSend _ => false

/-- The fields of one trace line (R251); an operand is marked as register or literal by its
constructor, and the stack is top first. The line's syntax is not in the source (N12). -/
structure TraceRecord where
  pc : Word
  regs : Vector Word 8
  mnemonic : String
  operands : List Operand
  stackTopFirst : List Word
  deriving DecidableEq, Repr

/-- The record of the instruction that the coming step begins, if it begins one. -/
def State.traceRecord (s : State) : Option TraceRecord :=
  match turn s with
  | .issue i => some
      { pc := s.pc, regs := s.x, mnemonic := i.mnemonic, operands := i.operands,
        stackTopFirst := s.stack.reverse }
  | .stop _ => none
  | .settled _ => none

end Sys2Proof.Machine
end

