-- ==== Sys2Proof/Safety.lean ====
section
/-! DEFINITION. The terms claims are made in: the invariant of the machine, what a destination write and
the rest of the state look like from outside, the shape of an encoding, and the host premise. -/

namespace Sys2Proof.Machine

/-! ### States -/

/-- An instruction boundary (R120). -/
def Boundary (s : State) : Prop := s.run = .running ∧ s.ioWait = .none

/-- The host premise HostResponsive at one state (R239): the watchdog does not expire now. -/
def HostResponsive (s : State) : Prop := s.envMove ≠ .expire

/-- The state with other inputs from the environment. -/
def State.withEnv (c : Bool) (m : EnvMove) (n : Nat) (s : State) : State :=
  { s with cancel := c, envMove := m, tick := n }

/-- The invariant of the machine. It holds after loading any image, and every step keeps it. -/
structure State.Inv (s : State) : Prop where
  /-- Memory is in its canonical form, inside the 32768 Words (R33). -/
  memory : s.mem.wf
  /-- The output is closed exactly in the terminal states (R38). -/
  closed : s.outClosed = true ↔ s.run ≠ .running
  /-- A rendezvous is suspended only while running (R39). -/
  waiting : s.ioWait ≠ .none → s.run = .running
  /-- WaitSend holds the value of the OUT that `pc` addresses (R39). -/
  atOut : ∀ v, s.ioWait = .waitSend v → ∃ a, fetchInstr s = .ok (.out a) ∧ resolve a s = v
  /-- WaitReceive holds the destination of the IN that `pc` addresses (R39). -/
  atIn : ∀ d, s.ioWait = .waitReceive d → fetchInstr s = .ok (.inp d)
  /-- The stack is never deeper than STACK_LIMIT (R150). -/
  depth : ∀ n, s.params.stackLimit = some n → s.stack.length ≤ n

/-! ### What changes and what does not -/

/-- Every byte of memory reads as before. -/
def SameMem (s t : State) : Prop := ∀ a, t.mem.readByte a = s.mem.readByte a

/-- Every byte of memory outside the Word at `k` reads as before. -/
def SameMemBut (k : Nat) (s t : State) : Prop :=
  ∀ a, a / 2 ≠ k → t.mem.readByte a = s.mem.readByte a

/-- Every register is as before. -/
def SameRegs (s t : State) : Prop := ∀ j, t.reg j = s.reg j

/-- What `WriteTo(d, v)` leaves (R127): a register destination holds `v`, every other register and all of
memory are as before; a literal destination is the memory address whose Word is `v`, every other byte
and every register are as before. -/
def Stored (d : Operand) (v : Word) (s t : State) : Prop :=
  match d with
  | .reg i => t.reg i = v ∧ (∀ j, j ≠ i → t.reg j = s.reg j) ∧ SameMem s t
  | .lit w => t.mem.readWord w.toNat = v ∧ SameMemBut w.toNat s t ∧ SameRegs s t

/-- The fields only the gateway, an end of run or the environment change: run state, output and its
closing, the inputs and the parameters. -/
structure SameRest (s t : State) : Prop where
  run : t.run = s.run
  outClosed : t.outClosed = s.outClosed
  cancel : t.cancel = s.cancel
  envMove : t.envMove = s.envMove
  tick : t.tick = s.tick
  output : t.output = s.output
  params : t.params = s.params

/-- The destination operand (role D) of an instruction, if it has one (R94, R95). -/
def destOf : Instr → Option Operand
  | .set a _ => some a
  | .pop a => some a
  | .eq a _ _ => some a
  | .gt a _ _ => some a
  | .add a _ _ => some a
  | .mult a _ _ => some a
  | .mod a _ _ => some a
  | .and a _ _ => some a
  | .or a _ _ => some a
  | .not a _ => some a
  | .rmem a _ => some a
  | .inp a => some a
  | .halt => none
  | .push _ => none
  | .jmp _ => none
  | .jt _ _ => none
  | .jf _ _ => none
  | .wmem _ _ => none
  | .call _ => none
  | .ret => none
  | .out _ => none
  | .noop => none

/-- The coming step of `s` writes the Word at `k` if it completes (R63): a suspended IN or the instruction at
`pc` has the literal destination `k`, or that instruction is a WMEM whose resolved destination is `k`. -/
def WritesWord (s : State) (k : Nat) : Prop :=
  (∃ w : Word, s.ioWait = .waitReceive (.lit w) ∧ w.toNat = k) ∨
  s.ioWait = .none ∧ ∃ i, fetchInstr s = .ok i ∧
    ((∃ w : Word, destOf i = some (.lit w) ∧ w.toNat = k) ∨
      ∃ a b, i = .wmem a b ∧ (resolve a s).toNat = k)

/-- `u` is reached from `t` by steps none of which writes the Word at `k`. -/
inductive ReachesUnwritten (k : Nat) (t : State) : State → Prop
  /-- No step. -/
  | refl : ReachesUnwritten k t t
  /-- One step more. -/
  | tail {u u' : State} (h : ReachesUnwritten k t u) (hw : ¬ WritesWord u k)
      (hs : step u = .next u') : ReachesUnwritten k t u'

/-- Every fetch from memory as `t` holds it, and every fetch after any number of steps that do not write
the Word at `k`, finds `v` there (R72). The machine may start from any `pc` and registers. -/
def SeenByLaterFetches (k : Nat) (v : Word) (t : State) : Prop :=
  ∀ (t' u : State) (w : Window) (j : Nat), t'.mem = t.mem → ReachesUnwritten k t' u →
    fetch u = .ok w → j < 4 → u.pc.toNat + j = k → w.words[j]? = some v

/-- The window at `p` of the memory of `s` with the Word `v` written at `k` and nothing else. -/
def windowAfterWrite (s : State) (k v p : Word) : Window :=
  let seen (j : Nat) : Word :=
    if p.toNat + j = k.toNat then v else s.mem.readWord (p.toNat + j)
  ⟨seen 0, seen 1, seen 2, seen 3⟩

/-- `i` completes in `s`: it stores the Word `v` in its destination `d`, advances `n`, and leaves
everything else. -/
def StoresResult (i : Instr) (d : Operand) (v : Word) (n : Nat) (s : State) : Prop :=
  ∃ t, exec i s = .next t ∧ Stored d v s t ∧ t.pc = BitVec.ofNat 16 (s.pc.toNat + n) ∧
    t.stack = s.stack ∧ t.ioWait = s.ioWait ∧ SameRest s t

/-- `i` raises the fault `k` in `s` (R260): the run state, `io_wait` and the output's closing change, and
nothing else. -/
def RaisesFault (i : Instr) (k : FaultKind) (s : State) : Prop :=
  exec i s = .next { s with run := .faulted k, ioWait := .none, outClosed := true }

/-- A boundary whose `pc` is above 32764 raises FetchOutOfRange with `pc` kept, unless the environment
takes the boundary stop first (R122, R207). -/
def FaultsAtNextFetch (s : State) : Prop :=
  Boundary s → (s.cancel = true → s.envMove ≠ .stop) → 32764 < s.pc.toNat →
    step s = .next (State.pollEnv { s with
      run := .faulted .fetchOutOfRange, ioWait := .none, outClosed := true })

/-! ### Encodings -/

/-- The operand a valid operand Word stands for (R93): register `w - 32768`, or the literal `w`. -/
def operandOf (w : Word) : Operand :=
  if 32768 ≤ w.toNat then .reg (Fin.ofNat 8 (w.toNat - 32768)) else .lit w

/-- A boundary that fetches the window `w` raises InvalidOperand before any effect (R124, R265). -/
def RaisesInvalidOperand (w : Window) : Prop :=
  ∀ s : State, Boundary s → (s.cancel = true → s.envMove ≠ .stop) → fetch s = .ok w →
    step s = .next (State.pollEnv { s with
      run := .faulted .invalidOperand, ioWait := .none, outClosed := true })

/-- Format F0 with opcode word `op`: one Word; the three Words after it are never checked (R91, R97 c). -/
def EncodedF0 (op : Word) (i : Instr) : Prop :=
  encode i = [op] ∧ ∀ a b c, decode ⟨op, a, b, c⟩ = .ok i

/-- Format F1 with opcode word `op`: two Words, the operand Word checked, the unused slots not. -/
def EncodedF1 (op : Word) (mk : Operand → Instr) : Prop :=
  (∀ o, encode (mk o) = [op, encodeOperand o]) ∧
  ∀ a b c, (a.toNat ≤ 32775 → decode ⟨op, a, b, c⟩ = .ok (mk (operandOf a))) ∧
    (32775 < a.toNat → RaisesInvalidOperand ⟨op, a, b, c⟩)

/-- Format F2 with opcode word `op`: three Words, both operand Words checked, the unused slot not. -/
def EncodedF2 (op : Word) (mk : Operand → Operand → Instr) : Prop :=
  (∀ o p, encode (mk o p) = [op, encodeOperand o, encodeOperand p]) ∧
  ∀ a b c, (a.toNat ≤ 32775 → b.toNat ≤ 32775 →
      decode ⟨op, a, b, c⟩ = .ok (mk (operandOf a) (operandOf b))) ∧
    (32775 < a.toNat ∨ 32775 < b.toNat → RaisesInvalidOperand ⟨op, a, b, c⟩)

/-- Format F3 with opcode word `op`: four Words, all three operand Words checked. -/
def EncodedF3 (op : Word) (mk : Operand → Operand → Operand → Instr) : Prop :=
  (∀ o p q, encode (mk o p q) = [op, encodeOperand o, encodeOperand p, encodeOperand q]) ∧
  ∀ a b c, (a.toNat ≤ 32775 → b.toNat ≤ 32775 → c.toNat ≤ 32775 →
      decode ⟨op, a, b, c⟩ = .ok (mk (operandOf a) (operandOf b) (operandOf c))) ∧
    (32775 < a.toNat ∨ 32775 < b.toNat ∨ 32775 < c.toNat → RaisesInvalidOperand ⟨op, a, b, c⟩)

end Sys2Proof.Machine
end

