-- ==== Sys2Proof/Certificates/Slice0/Obligations.lean ====
section
/-! DEFINITION. The statements for the provers. Each docstring names the rules of spec/ it formalises. -/

open Sys2Proof Sys2Proof.Machine

/-! ### Encoding -/

/-- R90, R91, R95: an instruction's Words, whatever follows them, decode to that instruction. -/
def Obligations.DecodeOfEncodeIsIdentity : Prop :=
  ∀ (i : Instr) (rest : List Word), i.WellFormed →
    decode (Window.ofWords (encode i ++ rest)) = .ok i

/-- R90, R93: what a window decodes to is well formed, and its Words are the first of the window. -/
def Obligations.EncodeOfDecodeIsPrefix : Prop :=
  ∀ (w : Window) (i : Instr), decode w = .ok i →
    i.WellFormed ∧ encode i = w.words.take i.length

/-- R98: every window decodes to exactly one of an instruction, InvalidOpcode and InvalidOperand; which
one is decided by the opcode word and the used operand Words, and the length by the opcode word. -/
def Obligations.DecodeIsTotal : Prop :=
  ∀ w : Window,
    (decode w = .error .invalidOpcode ↔ arityOf w.op = none) ∧
    (decode w = .error .invalidOperand ↔
      ∃ n, arityOf w.op = some n ∧ ∃ v ∈ [w.a, w.b, w.c].take n, 32776 ≤ v.toNat) ∧
    ((∃ i, decode w = .ok i) ↔
      ∃ n, arityOf w.op = some n ∧ ∀ v ∈ [w.a, w.b, w.c].take n, v.toNat ≤ 32775) ∧
    (∀ i n, decode w = .ok i → arityOf w.op = some n → i.length = 1 + n) ∧
    (arityOf w.op = none ↔ 21 < w.op.toNat)

/-- Sanity: Words written out from the spec's examples, one per family, decode as it says. -/
def Obligations.ExampleWordsDecode : Prop :=
  decode ⟨0, 0, 0, 0⟩ = .ok .halt ∧
  decode ⟨1, 32769, 7, 0⟩ = .ok (.set (.reg 1) (.lit 7)) ∧
  decode ⟨9, 32768, 32769, 4⟩ = .ok (.add (.reg 0) (.reg 1) (.lit 4)) ∧
  decode ⟨7, 32768, 3, 0⟩ = .ok (.jt (.reg 0) (.lit 3)) ∧
  decode ⟨19, 32768, 0, 0⟩ = .ok (.out (.reg 0)) ∧
  decode ⟨21, 40000, 40000, 40000⟩ = .ok .noop ∧
  decode ⟨22, 0, 0, 0⟩ = .error .invalidOpcode ∧
  decode ⟨32768, 0, 0, 0⟩ = .error .invalidOpcode ∧
  decode ⟨1, 32776, 0, 0⟩ = .error .invalidOperand

/-! ### The address resolver -/

/-- R125: `Classify` names register `w - 32768` exactly for `32768 <= w <= 32775`. -/
def Obligations.ClassifyNamesRegisters : Prop :=
  ∀ w : Word,
    (∀ i : Fin 8, classify w = some i ↔ w.toNat = 32768 + i.val) ∧
    (classify w = none ↔ w.toNat < 32768 ∨ 32775 < w.toNat)

/-- R126: a checked operand Word resolves to the register's value or to itself, a literal result is at
most 32767, and only the register file is read. -/
def Obligations.ResolveReadsRegisterOrLiteral : Prop :=
  ∀ (w : Word) (s : State), w.toNat ≤ 32775 →
    ∃ o, decodeOperand w = .ok o ∧
      (∀ i : Fin 8, w.toNat = 32768 + i.val → resolve o s = s.reg i) ∧
      (w.toNat ≤ 32767 → resolve o s = w) ∧
      ∀ s', SameRegs s s' → resolve o s' = resolve o s

/-- R127: `WriteTo` through a checked operand Word writes that register, or the memory cell at the
literal, with the full Word; it always succeeds, and nothing else changes. -/
def Obligations.WriteToStoresInRegisterOrCell : Prop :=
  ∀ (w v : Word) (s : State), w.toNat ≤ 32775 →
    ∃ o t, decodeOperand w = .ok o ∧ writeTo o v s = .ok t ∧
      (∀ i : Fin 8, w.toNat = 32768 + i.val → t.reg i = v ∧ SameMem s t ∧
        ∀ j, j ≠ i → t.reg j = s.reg j) ∧
      (w.toNat ≤ 32767 → t.mem.readWord w.toNat = v ∧ SameMemBut w.toNat s t ∧ SameRegs s t) ∧
      t.pc = s.pc ∧ t.stack = s.stack ∧ t.ioWait = s.ioWait ∧ SameRest s t

/-! ### Data movement -/

/-- R153: SET. -/
def Obligations.SetStoresOperandValue : Prop :=
  EncodedF2 1 .set ∧
  ∀ (a b : Operand) (s : State), (Instr.set a b).WellFormed →
    StoresResult (.set a b) a (resolve b s) 3 s

/-- R154, R150: PUSH appends to the top; with the stack at STACK_LIMIT it faults. -/
def Obligations.PushAppendsToTheStack : Prop :=
  EncodedF1 2 .push ∧
  ∀ (a : Operand) (s : State),
    (s.params.stackLimit ≠ some s.stack.length →
      exec (.push a) s = .next { s with
        stack := s.stack ++ [resolve a s], pc := BitVec.ofNat 16 (s.pc.toNat + 2) }) ∧
    (s.params.stackLimit = some s.stack.length → RaisesFault (.push a) .stackOverflow s)

/-- R155, R151: POP stores the top Word and removes it; on an empty stack it faults. -/
def Obligations.PopStoresTheTopWord : Prop :=
  EncodedF1 3 .pop ∧
  ∀ (a : Operand) (s : State), (Instr.pop a).WellFormed →
    (∀ v rest, s.stack = rest ++ [v] →
      ∃ t, exec (.pop a) s = .next t ∧ Stored a v s t ∧
        t.pc = BitVec.ofNat 16 (s.pc.toNat + 2) ∧ t.stack = rest ∧ t.ioWait = s.ioWait ∧
        SameRest s t) ∧
    (s.stack = [] → RaisesFault (.pop a) .underflow s)

/-- R156: RMEM stores the Word at the source operand's value; an address above 32767 faults. -/
def Obligations.RmemStoresTheAddressedWord : Prop :=
  EncodedF2 15 .rmem ∧
  ∀ (a b : Operand) (s : State), (Instr.rmem a b).WellFormed →
    ((resolve b s).toNat ≤ 32767 →
      StoresResult (.rmem a b) a (s.mem.readWord (resolve b s).toNat) 3 s) ∧
    (32768 ≤ (resolve b s).toNat → RaisesFault (.rmem a b) .memoryOutOfRange s)

/-- R157: WMEM writes the Word at the destination operand's value, never a register; an address above
32767 faults. -/
def Obligations.WmemWritesTheAddressedWord : Prop :=
  EncodedF2 16 .wmem ∧
  ∀ (a b : Operand) (s : State),
    ((resolve a s).toNat ≤ 32767 →
      ∃ t, exec (.wmem a b) s = .next t ∧
        t.mem.readWord (resolve a s).toNat = resolve b s ∧
        SameMemBut (resolve a s).toNat s t ∧ SameRegs s t ∧
        t.pc = BitVec.ofNat 16 (s.pc.toNat + 3) ∧ t.stack = s.stack ∧ t.ioWait = s.ioWait ∧
        SameRest s t) ∧
    (32768 ≤ (resolve a s).toNat → RaisesFault (.wmem a b) .memoryOutOfRange s)

/-! ### ALU -/

/-- R171: EQ. -/
def Obligations.EqStoresOneOrZero : Prop :=
  EncodedF3 4 .eq ∧
  ∀ (a b c : Operand) (s : State), (Instr.eq a b c).WellFormed →
    StoresResult (.eq a b c) a (if resolve b s = resolve c s then 1 else 0) 4 s

/-- R172: GT, unsigned. -/
def Obligations.GtStoresUnsignedGreater : Prop :=
  EncodedF3 5 .gt ∧
  ∀ (a b c : Operand) (s : State), (Instr.gt a b c).WellFormed →
    StoresResult (.gt a b c) a
      (if (resolve b s).toNat > (resolve c s).toNat then 1 else 0) 4 s

/-- R173: ADD, exact and then reduced mod 32768; reducing mod 65536 first gives the same. -/
def Obligations.AddStoresSumMod32768 : Prop :=
  EncodedF3 9 .add ∧
  ∀ (a b c : Operand) (s : State), (Instr.add a b c).WellFormed →
    ∃ v : Word, v.toNat = ((resolve b s).toNat + (resolve c s).toNat) % 32768 ∧
      v.toNat = (resolve b s + resolve c s).toNat % 32768 ∧
      StoresResult (.add a b c) a v 4 s

/-- R174: MULT, exact and then reduced mod 32768; reducing mod 65536 first gives the same. -/
def Obligations.MultStoresProductMod32768 : Prop :=
  EncodedF3 10 .mult ∧
  ∀ (a b c : Operand) (s : State), (Instr.mult a b c).WellFormed →
    ∃ v : Word, v.toNat = ((resolve b s).toNat * (resolve c s).toNat) % 32768 ∧
      v.toNat = (resolve b s * resolve c s).toNat % 32768 ∧
      StoresResult (.mult a b c) a v 4 s

/-- R175: MOD, not reduced mod 32768; by zero it faults with no write. -/
def Obligations.ModStoresRemainder : Prop :=
  EncodedF3 11 .mod ∧
  ∀ (a b c : Operand) (s : State), (Instr.mod a b c).WellFormed →
    ((resolve c s).toNat ≠ 0 →
      ∃ v : Word, v.toNat = (resolve b s).toNat % (resolve c s).toNat ∧
        StoresResult (.mod a b c) a v 4 s) ∧
    ((resolve c s).toNat = 0 → RaisesFault (.mod a b c) .divideByZero s)

/-- R176: AND, bit by bit and not masked. -/
def Obligations.AndStoresBitwiseAnd : Prop :=
  EncodedF3 12 .and ∧
  ∀ (a b c : Operand) (s : State), (Instr.and a b c).WellFormed →
    ∃ v : Word, (∀ n, v.getLsbD n = ((resolve b s).getLsbD n && (resolve c s).getLsbD n)) ∧
      StoresResult (.and a b c) a v 4 s

/-- R177: OR, bit by bit and not masked. -/
def Obligations.OrStoresBitwiseOr : Prop :=
  EncodedF3 13 .or ∧
  ∀ (a b c : Operand) (s : State), (Instr.or a b c).WellFormed →
    ∃ v : Word, (∀ n, v.getLsbD n = ((resolve b s).getLsbD n || (resolve c s).getLsbD n)) ∧
      StoresResult (.or a b c) a v 4 s

/-- R178: NOT is the complement masked to 15 bits, that is `32767 - B[14:0]`. -/
def Obligations.NotStoresMaskedComplement : Prop :=
  EncodedF2 14 .not ∧
  ∀ (a b : Operand) (s : State), (Instr.not a b).WellFormed →
    ∃ v : Word, v = (~~~(resolve b s) &&& 0x7FFF) ∧
      v.toNat = 32767 - (resolve b s).toNat % 32768 ∧
      StoresResult (.not a b) a v 3 s

/-- R179: for inputs at most 32767 every result of ADD, MULT, MOD, AND, OR and NOT is at most 32767, and
for ADD, MULT and NOT this holds for all inputs. -/
def Obligations.AluResultsStayIn15Bits : Prop :=
  ∀ (i : Fin 8) (b c : Operand) (s : State),
    (∀ mk ∈ [Instr.add, Instr.mult],
      ∃ t, exec (mk (.reg i) b c) s = .next t ∧ (t.reg i).toNat ≤ 32767) ∧
    (∃ t, exec (.not (.reg i) b) s = .next t ∧ (t.reg i).toNat ≤ 32767) ∧
    ((resolve b s).toNat ≤ 32767 → (resolve c s).toNat ≤ 32767 →
      (∀ mk ∈ [Instr.and, Instr.or],
        ∃ t, exec (mk (.reg i) b c) s = .next t ∧ (t.reg i).toNat ≤ 32767) ∧
      ((resolve c s).toNat ≠ 0 →
        ∃ t, exec (.mod (.reg i) b c) s = .next t ∧ (t.reg i).toNat ≤ 32767))

/-! ### Control transfer -/

/-- R200: HALT. -/
def Obligations.HaltEndsTheRun : Prop :=
  EncodedF0 0 .halt ∧
  ∀ s : State, exec .halt s = .next { s with run := .halted .haltInstruction, outClosed := true }

/-- R201: JMP sets `pc`, unchecked, and changes nothing else; a target above 32764 faults at the next
fetch, with `pc` as the jump left it. -/
def Obligations.JmpSetsPc : Prop :=
  EncodedF1 6 .jmp ∧
  ∀ (a : Operand) (s : State),
    exec (.jmp a) s = .next { s with pc := resolve a s } ∧
    FaultsAtNextFetch { s with pc := resolve a s }

/-- R202: JT jumps on any non-zero value, else advances 3 (C1). -/
def Obligations.JtJumpsOnNonZero : Prop :=
  EncodedF2 7 .jt ∧
  ∀ (a b : Operand) (s : State),
    exec (.jt a b) s = .next { s with
      pc := if resolve a s ≠ 0 then resolve b s else BitVec.ofNat 16 (s.pc.toNat + 3) }

/-- R203: JF jumps on zero, else advances 3 (C1); where the two ways differ, it jumps exactly when JT
with the same operands does not. -/
def Obligations.JfJumpsOnZero : Prop :=
  EncodedF2 8 .jf ∧
  ∀ (a b : Operand) (s : State),
    exec (.jf a b) s = .next { s with
      pc := if resolve a s = 0 then resolve b s else BitVec.ofNat 16 (s.pc.toNat + 3) } ∧
    (resolve b s ≠ BitVec.ofNat 16 (s.pc.toNat + 3) →
      (exec (.jf a b) s = .next { s with pc := resolve b s } ↔
        exec (.jt a b) s = .next { s with pc := BitVec.ofNat 16 (s.pc.toNat + 3) }))

/-- R204: CALL pushes the address after the instruction and jumps; the stack at STACK_LIMIT faults. -/
def Obligations.CallPushesReturnAddress : Prop :=
  EncodedF1 17 .call ∧
  ∀ (a : Operand) (s : State),
    (s.params.stackLimit ≠ some s.stack.length →
      exec (.call a) s = .next { s with
        stack := s.stack ++ [BitVec.ofNat 16 (s.pc.toNat + 2)], pc := resolve a s }) ∧
    (s.params.stackLimit = some s.stack.length → RaisesFault (.call a) .stackOverflow s)

/-- R205: RET pops `pc`; on an empty stack it halts the run cleanly. -/
def Obligations.RetPopsPcOrHalts : Prop :=
  EncodedF0 18 .ret ∧
  ∀ s : State,
    (∀ v rest, s.stack = rest ++ [v] → exec .ret s = .next { s with pc := v, stack := rest }) ∧
    (s.stack = [] → exec .ret s = .next { s with run := .halted .emptyReturn, outClosed := true })

/-- R206: NOOP only advances 1. -/
def Obligations.NoopOnlyAdvances : Prop :=
  EncodedF0 21 .noop ∧
  ∀ s : State, exec .noop s = .next { s with pc := BitVec.ofNat 16 (s.pc.toNat + 1) }

/-- R152: PUSH and then POP gives the pushed Word back and the stack as it was. -/
def Obligations.PushThenPopReturnsValue : Prop :=
  ∀ (a d : Operand) (s : State), d.WellFormed →
    s.params.stackLimit ≠ some s.stack.length →
    ∃ t u, exec (.push a) s = .next t ∧ exec (.pop d) t = .next u ∧
      Stored d (resolve a s) s u ∧ u.stack = s.stack

/-- R204, R205: CALL and then RET continues after the two-Word CALL with the stack as it was. -/
def Obligations.CallThenRetReturnsAfterCall : Prop :=
  ∀ (a : Operand) (s : State), s.params.stackLimit ≠ some s.stack.length → s.pc.toNat ≤ 32764 →
    ∃ t u, exec (.call a) s = .next t ∧ t.pc = resolve a s ∧ exec .ret t = .next u ∧
      u.pc.toNat = s.pc.toNat + 2 ∧ u.stack = s.stack ∧ u.mem = s.mem ∧ u.x = s.x

/-! ### I/O gateway -/

/-- From R233, R236 to R238 and D10: OUT suspends with the full resolved Word, and the environment's move
picks among the enabled outcomes: taken, timed out, cancelled, or still waiting. How moves pick, and that
the outcome may come in the same step, is the model's choice (log entry 2). -/
def Obligations.OutSendsOrWaits : Prop :=
  EncodedF1 19 .out ∧
  ∀ (a : Operand) (s : State),
    (s.envMove = .take →
      exec (.out a) s = .next { s with
        output := s.output ++ [resolve a s], ioWait := .none
        pc := BitVec.ofNat 16 (s.pc.toNat + 2) }) ∧
    (s.envMove = .expire → RaisesFault (.out a) .ioWatchdogTimeout s) ∧
    (s.envMove ≠ .take → s.envMove ≠ .expire → s.cancel = true →
      exec (.out a) s = .next { s with
        run := .halted .cancelled, ioWait := .none, outClosed := true }) ∧
    (s.envMove ≠ .take → s.envMove ≠ .expire → s.cancel = false →
      exec (.out a) s = .next { s with ioWait := .waitSend (resolve a s) })

/-- From R234, R236 to R238 and R242: IN takes any character of INPUT_ALPHABET through `WriteTo`; else it
times out, is cancelled, or waits. How moves pick, and that the outcome may come in the same step, is the
model's choice (log entry 2). -/
def Obligations.InReceivesOrWaits : Prop :=
  EncodedF1 20 .inp ∧
  (∀ (p : Params) (ch : Word), admits p ch = true ↔
    ∃ r ∈ p.inputAlphabet, r.1.toNat ≤ ch.toNat ∧ ch.toNat ≤ r.2.toNat) ∧
  ∀ (a : Operand) (s : State), (Instr.inp a).WellFormed →
    (∀ ch, s.envMove = .give ch → admits s.params ch = true →
      ∃ t, exec (.inp a) s = .next t ∧ Stored a ch s t ∧
        t.pc = BitVec.ofNat 16 (s.pc.toNat + 2) ∧ t.stack = s.stack ∧ t.ioWait = .none ∧
        SameRest s t) ∧
    (s.envMove = .expire → RaisesFault (.inp a) .ioWatchdogTimeout s) ∧
    ((∀ ch, s.envMove = .give ch → admits s.params ch = false) → s.envMove ≠ .expire →
      s.cancel = true →
      exec (.inp a) s = .next { s with
        run := .halted .cancelled, ioWait := .none, outClosed := true }) ∧
    ((∀ ch, s.envMove = .give ch → admits s.params ch = false) → s.envMove ≠ .expire →
      s.cancel = false → exec (.inp a) s = .next { s with ioWait := .waitReceive a })

/-- From R236 to R238 for a suspended OUT: one step takes exactly one outcome. How moves pick is the
model's choice (log entry 2). -/
def Obligations.SuspendedSendTakesOneOutcome : Prop :=
  ∀ (s : State) (v : Word), s.run = .running → s.ioWait = .waitSend v →
    (s.envMove = .take →
      step s = .next (State.pollEnv { s with
        output := s.output ++ [v], ioWait := .none, pc := BitVec.ofNat 16 (s.pc.toNat + 2) })) ∧
    (s.envMove = .expire →
      step s = .next (State.pollEnv { s with
        run := .faulted .ioWatchdogTimeout, ioWait := .none, outClosed := true })) ∧
    (s.envMove ≠ .take → s.envMove ≠ .expire → s.cancel = true →
      step s = .next (State.pollEnv { s with
        run := .halted .cancelled, ioWait := .none, outClosed := true })) ∧
    (s.envMove ≠ .take → s.envMove ≠ .expire → s.cancel = false → step s = .next s.pollEnv)

/-- From R236 to R238 for a suspended IN: one step takes exactly one outcome. A Word outside
INPUT_ALPHABET is no move of the host (R242, R243). How moves pick is the model's choice (log entry 2). -/
def Obligations.SuspendedReceiveTakesOneOutcome : Prop :=
  ∀ (s : State) (d : Operand), s.run = .running → s.ioWait = .waitReceive d → d.WellFormed →
    (∀ ch, s.envMove = .give ch → admits s.params ch = true →
      ∃ t, step s = .next t.pollEnv ∧ Stored d ch s t ∧
        t.pc = BitVec.ofNat 16 (s.pc.toNat + 2) ∧ t.stack = s.stack ∧ t.ioWait = .none ∧
        SameRest s t) ∧
    (s.envMove = .expire →
      step s = .next (State.pollEnv { s with
        run := .faulted .ioWatchdogTimeout, ioWait := .none, outClosed := true })) ∧
    ((∀ ch, s.envMove = .give ch → admits s.params ch = false) → s.envMove ≠ .expire →
      s.cancel = true →
      step s = .next (State.pollEnv { s with
        run := .halted .cancelled, ioWait := .none, outClosed := true })) ∧
    ((∀ ch, s.envMove = .give ch → admits s.params ch = false) → s.envMove ≠ .expire →
      s.cancel = false → step s = .next s.pollEnv)

/-- From R236 and R239: a step ends in a timeout only where the watchdog expires, so never where
HostResponsive holds, and only at a suspension or in the step that fetches an OUT or an IN. That
HostResponsive is a predicate of one state's move, and that a suspension may begin and time out in one step
(R236, D24 allow it), is the model's choice (log entry 2). -/
def Obligations.TimeoutNeedsWatchdogExpiry : Prop :=
  ∀ s t : State, step s = .next t → t.run = .faulted .ioWatchdogTimeout →
    ¬ HostResponsive s ∧
    (s.ioWait ≠ .none ∨ ∃ a, fetchInstr s = .ok (.out a) ∨ fetchInstr s = .ok (.inp a))

/-- From R74 and R241: a step sends at most one Word, and only the Word of the OUT that the host takes from.
The record `output` (log entry 5) and the taking as a move (log entry 2) are the model's choices. -/
def Obligations.OutputGrowsOnlyByCompletedOut : Prop :=
  ∀ s t : State, step s = .next t →
    t.output = s.output ∨
    ∃ v, t.output = s.output ++ [v] ∧ s.envMove = .take ∧ s.run = .running ∧ t.run = .running ∧
      (s.ioWait = .waitSend v ∨
        s.ioWait = .none ∧ ∃ a, fetchInstr s = .ok (.out a) ∧ resolve a s = v)

/-! ### The step -/

/-- R130: where the four Words at `pc` decode to an instruction and no boundary stop is taken, the step is
that instruction's handler, and then the environment's next move (`pollEnv`, the model's own, log
entry 2). -/
def Obligations.StepRunsTheDecodedInstruction : Prop :=
  ∀ (s : State) (i : Instr), Boundary s → (s.cancel = true → s.envMove ≠ .stop) →
    s.pc.toNat ≤ 32764 →
    decode ⟨s.mem.readWord s.pc.toNat, s.mem.readWord (s.pc.toNat + 1),
      s.mem.readWord (s.pc.toNat + 2), s.mem.readWord (s.pc.toNat + 3)⟩ = .ok i →
    step s = onNext State.pollEnv (exec i s)

/-- R121: at a boundary with `cancel = 1` the stop is taken exactly when the environment chooses it; any
other move, or `cancel = 0`, starts the instruction as usual. That the choice is a move is the model's
(log entry 2). -/
def Obligations.BoundaryCancelMayStop : Prop :=
  ∀ s : State, Boundary s →
    (s.cancel = true → s.envMove = .stop →
      step s = .next (State.pollEnv { s with run := .halted .cancelled, outClosed := true })) ∧
    ((s.cancel = false ∨ s.envMove ≠ .stop) → ∀ i, fetchInstr s = .ok i →
      step s = onNext State.pollEnv (exec i s))

/-- R271 (with R122 to R124): the first condition in the order of priority is the one reported, and an
instruction's own condition is of its own kind. The stop is a move of the environment (the model's choice,
log entry 2). -/
def Obligations.FaultPriority : Prop :=
  (∀ (s : State), Boundary s →
    let w : Window := ⟨s.mem.readWord s.pc.toNat, s.mem.readWord (s.pc.toNat + 1),
      s.mem.readWord (s.pc.toNat + 2), s.mem.readWord (s.pc.toNat + 3)⟩
    let raised (k : FaultKind) : Host.Outcome State Fault Refusal :=
      .next (State.pollEnv { s with run := .faulted k, ioWait := .none, outClosed := true })
    if s.cancel = true ∧ s.envMove = .stop then
      step s = .next (State.pollEnv { s with run := .halted .cancelled, outClosed := true })
    else if 32764 < s.pc.toNat then step s = raised .fetchOutOfRange
    else if 21 < w.op.toNat then step s = raised .invalidOpcode
    else if ∃ n, arityOf w.op = some n ∧ ∃ v ∈ [w.a, w.b, w.c].take n, 32776 ≤ v.toNat then
      step s = raised .invalidOperand
    else ∃ i, decode w = .ok i ∧ step s = onNext State.pollEnv (exec i s)) ∧
  ∀ (i : Instr) (s t : State) (k : FaultKind), i.WellFormed → s.run = .running →
    exec i s = .next t → t.run = .faulted k →
    match i with
    | .pop _ => k = .underflow
    | .rmem _ _ => k = .memoryOutOfRange
    | .wmem _ _ => k = .memoryOutOfRange
    | .mod _ _ _ => k = .divideByZero
    | .push _ => k = .stackOverflow
    | .call _ => k = .stackOverflow
    | .out _ => k = .ioWatchdogTimeout
    | .inp _ => k = .ioWatchdogTimeout
    | _ => False

/-- R35, R120: a terminal state has no transition, and the step says which end it was (the outcome's form
is the model's, log entry 9). -/
def Obligations.TerminalStatesHaveNoStep : Prop :=
  ∀ s : State,
    (∀ r, s.run = .halted r → step s = .fault (.halted r)) ∧
    (∀ k, s.run = .faulted k → step s = .fault (.faulted k))

/-- From R97, R98, R120, R130 and R236: a running machine always has a next state; no instruction is
refused. That a suspension with no outcome yet persists as a step is the model's choice (log entry 2), and
that a fault or a halt is a next state is read from R260, R37 and R35 (DEDUCED, log entry 9). -/
def Obligations.RunningMachineAlwaysSteps : Prop :=
  ∀ s : State, s.run = .running → ∃ t, step s = .next t

/-- R260: every step that ends in a fault leaves registers, memory, stack, `pc` and output as they were,
clears `io_wait` and closes the output, and ends the run. -/
def Obligations.FaultsArePrecise : Prop :=
  ∀ (s t : State) (k : FaultKind), step s = .next t → t.run = .faulted k →
    t.ioWait = .none ∧ t.outClosed = true ∧ t.mem = s.mem ∧ t.x = s.x ∧ t.pc = s.pc ∧
    t.stack = s.stack ∧ t.output = s.output ∧ t.params = s.params ∧ step t = .fault (.faulted k)

/-- R37, R237: every step that halts leaves registers, memory, stack, `pc` and output as they were,
leaves no rendezvous suspended, closes the output and ends the run. -/
def Obligations.HaltsKeepTheState : Prop :=
  ∀ (s t : State) (r : HaltReason), step s = .next t → t.run = .halted r →
    t.ioWait = .none ∧ t.outClosed = true ∧ t.mem = s.mem ∧ t.x = s.x ∧ t.pc = s.pc ∧
    t.stack = s.stack ∧ t.output = s.output ∧ t.params = s.params ∧ step t = .fault (.halted r)

/-- R36: which step halts for which reason. -/
def Obligations.HaltReasonsHaveTheirCauses : Prop :=
  ∀ (s t : State) (r : HaltReason), step s = .next t → t.run = .halted r →
    match r with
    | .haltInstruction => s.ioWait = .none ∧ fetchInstr s = .ok .halt
    | .emptyReturn => s.ioWait = .none ∧ fetchInstr s = .ok .ret ∧ s.stack = []
    | .cancelled => s.cancel = true

/-- The invariant of the machine is kept by every step. -/
def Obligations.StepKeepsInvariant : Prop :=
  ∀ s t : State, s.Inv → step s = .next t → t.Inv

/-- The invariant holds after reset. -/
def Obligations.ResetSatisfiesInvariant : Prop := State.reset.Inv

/-- The invariant holds after loading any image under any parameters. -/
def Obligations.LoadedStateSatisfiesInvariant : Prop :=
  ∀ (p : Params) (c : Bool) (m : EnvMove) (img : Image) (s : State),
    load p c m img = .ok s → s.Inv

/-- R30: a step changes a register only through a destination operand that names it. -/
def Obligations.RegistersChangeOnlyThroughDestination : Prop :=
  ∀ (s t : State) (i : Fin 8), step s = .next t → t.reg i ≠ s.reg i →
    s.ioWait = .waitReceive (.reg i) ∨
    s.ioWait = .none ∧ ∃ j, fetchInstr s = .ok j ∧ destOf j = some (.reg i)

/-- R33, R63: a step changes a byte of memory only by a literal destination or by WMEM, at that Word. -/
def Obligations.MemoryChangesOnlyByDestinationOrWmem : Prop :=
  ∀ (s t : State) (a : Nat), step s = .next t → t.mem.readByte a ≠ s.mem.readByte a →
    (∃ w : Word, s.ioWait = .waitReceive (.lit w) ∧ a / 2 = w.toNat) ∨
    s.ioWait = .none ∧ ∃ j, fetchInstr s = .ok j ∧
      ((∃ w : Word, destOf j = some (.lit w) ∧ a / 2 = w.toNat) ∨
        ∃ p q, j = .wmem p q ∧ a / 2 = (resolve p s).toNat)

/-- R34: a step changes the stack only by PUSH, POP, CALL or RET. -/
def Obligations.StackChangesOnlyByStackInstructions : Prop :=
  ∀ s t : State, step s = .next t → t.stack ≠ s.stack →
    s.ioWait = .none ∧
      ∃ j, fetchInstr s = .ok j ∧ (j = .ret ∨ ∃ a, j = .push a ∨ j = .pop a ∨ j = .call a)

/-- R128, R129: a completed instruction that does not jump advances `pc` by its length on naturals; a
conditional jump goes to its target or past itself. -/
def Obligations.CompletedInstructionsAdvanceByLength : Prop :=
  ∀ (s t : State) (i : Instr), Boundary s → fetchInstr s = .ok i → step s = .next t →
    t.run = .running → t.ioWait = .none →
    match i with
    | .jmp a => t.pc = resolve a s
    | .call a => t.pc = resolve a s
    | .ret => ∃ rest, s.stack = rest ++ [t.pc]
    | .jt _ b => t.pc = resolve b s ∨ t.pc.toNat = s.pc.toNat + 3
    | .jf _ b => t.pc = resolve b s ∨ t.pc.toNat = s.pc.toNat + 3
    | j => t.pc.toNat = s.pc.toNat + j.length ∧ t.pc.toNat ≤ 32768

/-- R38, R40, R42: no step reopens the output, lowers `cancel` or changes the parameters. -/
def Obligations.LatchesAndParametersPersist : Prop :=
  ∀ s t : State, step s = .next t →
    (s.outClosed = true → t.outClosed = true) ∧ (s.cancel = true → t.cancel = true) ∧
    t.params = s.params

/-- R131: an instruction other than OUT and IN does not read the environment: with any other inputs it
does the same. -/
def Obligations.OnlyIoReadsTheEnvironment : Prop :=
  ∀ (i : Instr) (s : State) (c : Bool) (m : EnvMove) (n : Nat),
    (∀ a, i ≠ .out a ∧ i ≠ .inp a) →
    exec i (s.withEnv c m n) = onNext (State.withEnv c m n) (exec i s)

/-- R72: a Word written by WMEM, or by `WriteTo` with a literal destination, is seen by every later fetch
until a step writes that Word again, and the write changes no other Word of a window. So is the Word of
every instruction, and of every suspended IN, that completes with a literal destination. -/
def Obligations.FetchSeesWrittenWord : Prop :=
  (∀ (a b : Operand) (s : State), (resolve a s).toNat ≤ 32767 →
    ∃ t, exec (.wmem a b) s = .next t ∧
      SeenByLaterFetches (resolve a s).toNat (resolve b s) t ∧
      ∀ p : Word, p.toNat ≤ 32764 →
        fetch { t with pc := p } = .ok (windowAfterWrite s (resolve a s) (resolve b s) p)) ∧
  (∀ (k v : Word) (s : State), k.toNat ≤ 32767 →
    ∃ t, writeTo (.lit k) v s = .ok t ∧
      SeenByLaterFetches k.toNat v t ∧
      ∀ p : Word, p.toNat ≤ 32764 → fetch { t with pc := p } = .ok (windowAfterWrite s k v p)) ∧
  ∀ (s t : State) (k : Word), step s = .next t → t.run = .running → t.ioWait = .none →
    (s.ioWait = .waitReceive (.lit k) ∨
      Boundary s ∧ ∃ i, fetchInstr s = .ok i ∧ destOf i = some (.lit k)) →
    ∃ v, Stored (.lit k) v s t ∧ SeenByLaterFetches k.toNat v t

/-! ### Reset, loading and the host's view -/

/-- R44: the machine's own state right after reset with nothing loaded. -/
def Obligations.ResetState : Prop :=
  (∀ k, State.reset.mem.readWord k = 0) ∧ (∀ i, State.reset.reg i = 0) ∧ State.reset.pc = 0 ∧
  State.reset.stack = [] ∧ State.reset.run = .running ∧ State.reset.ioWait = .none ∧
  State.reset.outClosed = false

/-- R291, R44: an even image that fits is loaded little-endian from address 0, the rest of memory is 0,
and every other field has its reset value, with `cancel` as the host drives it. -/
def Obligations.LoadPlacesImageLittleEndian : Prop :=
  ∀ (p : Params) (c : Bool) (m : EnvMove) (bs : List Byte), bs.length % 2 = 0 →
    bs.length ≤ 65536 →
    ∃ s, load p c m (.bytes bs) = .ok s ∧
      (∀ (k : Nat) (h : 2 * k + 1 < bs.length),
        (s.mem.readWord k).toNat = bs[2 * k].toNat + 256 * bs[2 * k + 1].toNat) ∧
      (∀ k, bs.length ≤ 2 * k → s.mem.readWord k = 0) ∧
      (∀ i, s.reg i = 0) ∧ s.pc = 0 ∧ s.stack = [] ∧ s.run = .running ∧ s.ioWait = .none ∧
      s.outClosed = false ∧ s.cancel = c ∧ s.params = p

/-- R270, R292: which images are refused before execution, and what a too long image of an even number of
bytes loads. -/
def Obligations.LoadFailuresAndTruncation : Prop :=
  ∀ (p : Params) (c : Bool) (m : EnvMove),
    (∃ e, load p c m .unreadable = .error e) ∧
    (∀ bs : List Byte, bs.length % 2 = 1 → bs.length ≤ 65536 →
      ∃ e, load p c m (.bytes bs) = .error e) ∧
    (∀ bs : List Byte, 65536 < bs.length → p.oversizeImage = .reject →
      ∃ e, load p c m (.bytes bs) = .error e) ∧
    (∀ bs : List Byte, 65536 < bs.length → bs.length % 2 = 0 → p.oversizeImage = .truncate →
      ∃ s, load p c m (.bytes bs) = .ok s ∧
        load p c m (.bytes (bs.take 65536)) = .ok s)

/-- R261: the status code of every run state. -/
def Obligations.StatusCodes : Prop :=
  [RunState.running, .halted .haltInstruction, .halted .emptyReturn, .halted .cancelled,
    .faulted .underflow, .faulted .invalidOpcode, .faulted .ioWatchdogTimeout,
    .faulted .invalidOperand, .faulted .memoryOutOfRange, .faulted .fetchOutOfRange,
    .faulted .divideByZero, .faulted .stackOverflow].map (fun r =>
      State.status { State.reset with run := r }) = [0, 1, 2, 3, 16, 17, 18, 19, 20, 21, 22, 23] ∧
  ∀ e, loadErrorCode e = 31

/-- R241: in a terminal state the output is closed, no Word is offered, no character
requested, and no step follows. -/
def Obligations.TerminalPortsAreQuiet : Prop :=
  ∀ s : State, s.Inv → s.run ≠ .running →
    s.outClosed = true ∧ s.outData = none ∧ s.inReq = false ∧ ∃ f, step s = .fault f

/-- R251: the trace record of a step that begins an instruction holds the fields the rule lists, the
stack top first. That they are read before the instruction is the model's choice (log entry 12). -/
def Obligations.TraceRecordHoldsTheFields : Prop :=
  ∀ (s : State) (i : Instr), Boundary s → (s.cancel = true → s.envMove ≠ .stop) →
    fetchInstr s = .ok i →
    ∃ r, s.traceRecord = some r ∧ r.pc = s.pc ∧ (∀ (j : Fin 8), r.regs[j.val] = s.reg j) ∧
      r.mnemonic = i.mnemonic ∧ r.operands = i.operands ∧ r.stackTopFirst = s.stack.reverse
end

