-- ==== Sys2Proof/Laws/Decode.lean ====
section
/-! SUPPORT. What decoding one operand Word, and one window of each format, answers. -/

namespace Sys2Proof.Machine

/-- A Word classifies as a register exactly in `32768..32775`. -/
theorem classify_eq_some {w : Word} {i : Fin 8} :
    classify w = some i ↔ w.toNat = 32768 + i.val := by
  unfold classify
  simp only [Config.regBase, Config.numRegs]
  split
  · next h =>
    simp only [Option.some.injEq, Fin.ext_iff, Fin.ofNat]
    omega
  · next h =>
    have := i.isLt
    simp only [reduceCtorEq, false_iff]
    omega

theorem classify_eq_none {w : Word} : classify w = none ↔ w.toNat < 32768 ∨ 32775 < w.toNat := by
  unfold classify
  simp only [Config.regBase, Config.numRegs]
  split
  · next h => simp only [reduceCtorEq, false_iff]; omega
  · next h => simp only [true_iff]; omega

/-- Decoding one operand Word (R93, R124). -/
theorem decodeOperand_eq (w : Word) :
    decodeOperand w =
      if w.toNat ≤ 32775 then .ok (operandOf w) else .error .invalidOperand := by
  unfold decodeOperand operandOf
  cases hc : classify w with
  | some i =>
    have h := classify_eq_some.mp hc
    have hi := i.isLt
    have : Fin.ofNat 8 (w.toNat - 32768) = i := by
      simp only [Fin.ext_iff, Fin.ofNat]; omega
    have h1 : w.toNat ≤ 32775 := by omega
    have h2 : 32768 ≤ w.toNat := by omega
    simp only [this, if_pos h1, if_pos h2]
  | none =>
    have h := classify_eq_none.mp hc
    simp only [Config.memWords]
    by_cases hl : w.toNat < 32768
    · have h1 : w.toNat ≤ 32775 := by omega
      have h2 : ¬ 32768 ≤ w.toNat := by omega
      simp only [if_pos hl, if_pos h1, if_neg h2]
    · have h1 : ¬ w.toNat ≤ 32775 := by omega
      simp only [if_neg hl, if_neg h1]

theorem operandOf_wellFormed {w : Word} (h : w.toNat ≤ 32775) : (operandOf w).WellFormed := by
  unfold operandOf Operand.WellFormed
  split
  · rfl
  · next h => simp only [Operand.wellFormed, Config.memWords, decide_eq_true_eq]; omega

/-- The Word of the operand a valid Word stands for is that Word. -/
theorem encodeOperand_operandOf {w : Word} (h : w.toNat ≤ 32775) :
    encodeOperand (operandOf w) = w := by
  unfold operandOf
  split
  · apply BitVec.eq_of_toNat_eq
    simp only [encodeOperand, Config.regBase, Fin.ofNat, BitVec.toNat_ofNat]
    omega
  · rfl

theorem toNat_encodeOperand_reg (i : Fin 8) : (encodeOperand (.reg i)).toNat = 32768 + i.val := by
  have hi := i.isLt
  simp only [encodeOperand, Config.regBase, BitVec.toNat_ofNat]
  omega

/-- A well-formed operand's Word is valid and stands for that operand. -/
theorem operandOf_encodeOperand {o : Operand} (h : o.WellFormed) :
    (encodeOperand o).toNat ≤ 32775 ∧ operandOf (encodeOperand o) = o := by
  cases o with
  | lit w =>
    simp only [Operand.WellFormed, Operand.wellFormed, Config.memWords, decide_eq_true_eq] at h
    have h2 : ¬ 32768 ≤ w.toNat := by omega
    exact ⟨by show w.toNat ≤ 32775; omega, by
      show operandOf w = _
      simp only [operandOf, if_neg h2]⟩
  | reg i =>
    have hi := i.isLt
    have hv := toNat_encodeOperand_reg i
    have h2 : 32768 ≤ (encodeOperand (.reg i)).toNat := by omega
    have hf : Fin.ofNat 8 ((encodeOperand (.reg i)).toNat - 32768) = i := by
      simp only [Fin.ext_iff, Fin.ofNat]; omega
    exact ⟨by omega, by simp only [operandOf, if_pos h2, hf]⟩

theorem decodeF1_eq (mk : Operand → Instr) (w : Window) :
    decodeF1 mk w =
      if w.a.toNat ≤ 32775 then .ok (mk (operandOf w.a)) else .error .invalidOperand := by
  simp only [decodeF1, decodeOperand_eq]
  by_cases ha : w.a.toNat ≤ 32775 <;> simp [ha]

theorem decodeF2_eq (mk : Operand → Operand → Instr) (w : Window) :
    decodeF2 mk w =
      if w.a.toNat ≤ 32775 ∧ w.b.toNat ≤ 32775 then .ok (mk (operandOf w.a) (operandOf w.b))
      else .error .invalidOperand := by
  simp only [decodeF2, decodeOperand_eq]
  by_cases ha : w.a.toNat ≤ 32775 <;> by_cases hb : w.b.toNat ≤ 32775 <;> simp [ha, hb]

theorem decodeF3_eq (mk : Operand → Operand → Operand → Instr) (w : Window) :
    decodeF3 mk w =
      if w.a.toNat ≤ 32775 ∧ w.b.toNat ≤ 32775 ∧ w.c.toNat ≤ 32775 then
        .ok (mk (operandOf w.a) (operandOf w.b) (operandOf w.c))
      else .error .invalidOperand := by
  simp only [decodeF3, decodeOperand_eq]
  by_cases ha : w.a.toNat ≤ 32775 <;> by_cases hb : w.b.toNat ≤ 32775 <;>
    by_cases hc : w.c.toNat ≤ 32775 <;> simp [ha, hb, hc]

end Sys2Proof.Machine
end

