-- ==== Sys2Proof/Laws/Memory.lean ====
section
/-! SUPPORT. The laws of memory: a read after a write, and the canonical form. -/

namespace Sys2Proof.Machine

theorem Memory.readByte_without (m : Memory) (a k : Nat) :
    Memory.readByte (Memory.without m a) k = if k = a then Memory.unlisted else m.readByte k := by
  induction m with
  | nil => simp [Memory.without, Memory.readByte]
  | cons c m ih =>
    obtain ⟨a', b'⟩ := c
    unfold Memory.without at ih ⊢
    rw [List.filter_cons]
    by_cases h : a' = a
    · simp only [h, ne_eq, not_true_eq_false, decide_false, Bool.false_eq_true, if_false, ih,
        Memory.readByte]
      split <;> rfl
    · simp only [ne_eq, h, not_false_eq_true, decide_true, if_true, Memory.readByte, ih]
      by_cases hk : k = a'
      · simp [hk, h]
      · simp [hk]

theorem Memory.readByte_insertCell (m : Memory) (a k : Nat) (b : Byte)
    (h : ∀ c ∈ m, c.1 ≠ a) :
    Memory.readByte (Memory.insertCell m a b) k = if k = a then b else m.readByte k := by
  induction m with
  | nil => simp [Memory.insertCell, Memory.readByte]
  | cons c m ih =>
    obtain ⟨a', b'⟩ := c
    have hc : a' ≠ a := h (a', b') (by simp)
    have ih := ih fun c hm => h c (by simp [hm])
    unfold Memory.insertCell
    split
    · rfl
    · simp only [Memory.readByte, ih]
      by_cases hk : k = a'
      · simp [hk, hc]
      · simp [hk]

theorem Memory.without_ne (m : Memory) (a : Nat) : ∀ c ∈ Memory.without m a, c.1 ≠ a := by
  intro c hc
  simpa using (List.mem_filter.mp hc).2

/-- A byte read after a byte write. -/
theorem Memory.readByte_writeByte (m : Memory) (a k : Nat) (b : Byte) :
    Memory.readByte (Memory.writeByte m a b) k = if k = a then b else m.readByte k := by
  unfold Memory.writeByte
  split
  · next h => rw [Memory.readByte_without, h]
  · rw [Memory.readByte_insertCell _ _ _ _ (Memory.without_ne m a), Memory.readByte_without]
    split <;> rfl

theorem joinBytes_split (v : Word) : joinBytes (lowByte v) (highByte v) = v := by
  apply BitVec.eq_of_toNat_eq
  have := v.isLt
  simp only [joinBytes, lowByte, highByte, BitVec.toNat_ofNat]
  omega

/-- The bytes of a Word write: the two of its address change, no other does. -/
theorem Memory.readByte_writeWord (m : Memory) (k : Nat) (v : Word) (a : Nat) :
    Memory.readByte (Memory.writeWord m k v) a =
      if a = 2 * k + 1 then highByte v else if a = 2 * k then lowByte v else m.readByte a := by
  simp only [Memory.writeWord, Memory.readByte_writeByte]

theorem Memory.readByte_writeWord_other (m : Memory) (k : Nat) (v : Word) (a : Nat)
    (h : a / 2 ≠ k) : Memory.readByte (Memory.writeWord m k v) a = m.readByte a := by
  rw [Memory.readByte_writeWord]
  split
  · omega
  · split
    · omega
    · rfl

/-- A Word read after a Word write. -/
theorem Memory.readWord_writeWord (m : Memory) (k j : Nat) (v : Word) :
    Memory.readWord (Memory.writeWord m k v) j = if j = k then v else m.readWord j := by
  unfold Memory.readWord
  split
  · next h =>
    subst h
    simp [Memory.readByte_writeWord, joinBytes_split]
  · rw [Memory.readByte_writeWord_other, Memory.readByte_writeWord_other] <;> omega

@[simp] theorem Memory.readWord_writeWord_same (m : Memory) (k : Nat) (v : Word) :
    Memory.readWord (Memory.writeWord m k v) k = v := by
  simp [Memory.readWord_writeWord]

/-- Two memories whose bytes read alike read alike as Words. -/
theorem Memory.readWord_congr {m n : Memory} {k : Nat}
    (h : ∀ a, a / 2 = k → m.readByte a = n.readByte a) : m.readWord k = n.readWord k := by
  unfold Memory.readWord
  rw [h (2 * k) (by omega), h (2 * k + 1) (by omega)]

/-! ### The canonical form -/

theorem Memory.wf_nil : Memory.wf [] := by simp [Memory.wf]

theorem Memory.wf_without {m : Memory} (h : m.wf) (a : Nat) : Memory.wf (Memory.without m a) :=
  ⟨h.1.filter _, fun c hc => h.2 c (List.mem_filter.mp hc).1⟩

theorem Memory.mem_insertCell {m : Memory} {a : Nat} {b : Byte} {c : Host.Cell}
    (h : c ∈ Memory.insertCell m a b) : c = (a, b) ∨ c ∈ m := by
  induction m with
  | nil => simpa [Memory.insertCell] using h
  | cons d m ih =>
    unfold Memory.insertCell at h
    split at h
    · simpa using h
    · rcases List.mem_cons.mp h with rfl | h
      · exact .inr (by simp)
      · exact (ih h).imp_right fun h => List.mem_cons_of_mem _ h

theorem Memory.pairwise_insertCell {m : Memory} {a : Nat} (b : Byte)
    (hs : m.Pairwise fun c d => c.1 < d.1) (hne : ∀ c ∈ m, c.1 ≠ a) :
    (Memory.insertCell m a b).Pairwise fun c d => c.1 < d.1 := by
  induction m with
  | nil => simp [Memory.insertCell]
  | cons d m ih =>
    have hd := List.pairwise_cons.mp hs
    unfold Memory.insertCell
    split
    · next hlt =>
      refine List.pairwise_cons.mpr ⟨fun e he => ?_, hs⟩
      rcases List.mem_cons.mp he with rfl | he
      · exact hlt
      · exact lt_trans hlt (hd.1 e he)
    · next hlt =>
      have hda : d.1 ≠ a := hne d (by simp)
      refine List.pairwise_cons.mpr ⟨fun e he => ?_, ih hd.2 fun c hc => hne c (by simp [hc])⟩
      rcases Memory.mem_insertCell he with rfl | he
      · exact by simp only; omega
      · exact hd.1 e he

/-- A byte write inside the 32768 Words keeps the canonical form. -/
theorem Memory.wf_writeByte {m : Memory} (h : m.wf) {a : Nat} (b : Byte)
    (ha : a < 2 * Config.memWords) : Memory.wf (Memory.writeByte m a b) := by
  have hw := Memory.wf_without h a
  unfold Memory.writeByte
  split
  · exact hw
  · next hb =>
    refine ⟨Memory.pairwise_insertCell b hw.1 (Memory.without_ne m a), fun c hc => ?_⟩
    rcases Memory.mem_insertCell hc with rfl | hc
    · exact ⟨hb, ha⟩
    · exact hw.2 c hc

/-- A Word write inside memory keeps the canonical form. -/
theorem Memory.wf_writeWord {m : Memory} (h : m.wf) {k : Nat} (v : Word)
    (hk : k < Config.memWords) : Memory.wf (Memory.writeWord m k v) := by
  simp only [Config.memWords] at hk
  exact Memory.wf_writeByte (Memory.wf_writeByte h _ (by simp only [Config.memWords]; omega)) _
    (by simp only [Config.memWords]; omega)

theorem Memory.readByte_of_mem {m : Memory} (hs : m.Pairwise fun c d => c.1 < d.1)
    {c : Host.Cell} (hc : c ∈ m) : m.readByte c.1 = c.2 := by
  induction m with
  | nil => simp at hc
  | cons d m ih =>
    have hd := List.pairwise_cons.mp hs
    unfold Memory.readByte
    rcases List.mem_cons.mp hc with rfl | hc
    · simp
    · have := hd.1 c hc
      rw [if_neg (by omega), ih hd.2 hc]

theorem Memory.readByte_of_not_listed {m : Memory} {a : Nat} (h : ∀ c ∈ m, c.1 ≠ a) :
    m.readByte a = Memory.unlisted := by
  induction m with
  | nil => rfl
  | cons d m ih =>
    unfold Memory.readByte
    rw [if_neg (fun e => h d (by simp) e.symm), ih fun c hc => h c (by simp [hc])]

/-- Outside the 32768 Words a well-formed memory lists nothing. -/
theorem Memory.readByte_outside {m : Memory} (h : m.wf) {a : Nat} (ha : 2 * Config.memWords ≤ a) :
    m.readByte a = Memory.unlisted :=
  Memory.readByte_of_not_listed fun c hc e => absurd (h.2 c hc).2 (by omega)

/-- Equal memories are equal data: well-formed memories that read alike are the same list. -/
theorem Memory.ext_of_wf {m n : Memory} (hm : m.wf) (hn : n.wf)
    (h : ∀ a, m.readByte a = n.readByte a) : m = n := by
  have key : ∀ {p q : Memory}, p.wf → q.wf → (∀ a, p.readByte a = q.readByte a) → p ⊆ q := by
    intro p q hp hq hpq c hc
    by_contra hn
    have hread := Memory.readByte_of_mem hp.1 hc
    rw [hpq c.1] at hread
    by_cases hex : ∃ d ∈ q, d.1 = c.1
    · obtain ⟨d, hd, he⟩ := hex
      have := Memory.readByte_of_mem hq.1 hd
      rw [he, hread] at this
      exact hn (Prod.ext he this.symm ▸ hd)
    · have := Memory.readByte_of_not_listed (m := q) (a := c.1)
        (fun d hd he => hex ⟨d, hd, he⟩)
      exact (hp.2 c hc).1 (hread.symm.trans this)
  have nodup : ∀ {p : Memory}, p.wf → p.Nodup := fun hp =>
    hp.1.imp fun hlt e => absurd hlt (by simp [e])
  refine List.Perm.eq_of_pairwise (le := fun c d => c.1 < d.1) ?_ hm.1 hn.1 ?_
  · intro c d _ _ h1 h2
    exact absurd h1 (by omega)
  · exact (List.perm_ext_iff_of_nodup (nodup hm) (nodup hn)).mpr fun c =>
      ⟨fun hc => key hm hn h hc, fun hc => key hn hm (fun a => (h a).symm) hc⟩

end Sys2Proof.Machine
end

