-- ==== Sys2Proof/Laws/State.lean ====
section
/-! SUPPORT. One lemma per field per named update of State: what the update leaves in the field. -/

namespace Sys2Proof.Machine

@[simp] theorem State.withMem_mem (m : Memory) (s : State) :
    (State.withMem m s).mem = m := rfl
@[simp] theorem State.withMem_x (m : Memory) (s : State) :
    (State.withMem m s).x = s.x := rfl
@[simp] theorem State.withMem_pc (m : Memory) (s : State) :
    (State.withMem m s).pc = s.pc := rfl
@[simp] theorem State.withMem_stack (m : Memory) (s : State) :
    (State.withMem m s).stack = s.stack := rfl
@[simp] theorem State.withMem_run (m : Memory) (s : State) :
    (State.withMem m s).run = s.run := rfl
@[simp] theorem State.withMem_ioWait (m : Memory) (s : State) :
    (State.withMem m s).ioWait = s.ioWait := rfl
@[simp] theorem State.withMem_outClosed (m : Memory) (s : State) :
    (State.withMem m s).outClosed = s.outClosed := rfl
@[simp] theorem State.withMem_cancel (m : Memory) (s : State) :
    (State.withMem m s).cancel = s.cancel := rfl
@[simp] theorem State.withMem_envMove (m : Memory) (s : State) :
    (State.withMem m s).envMove = s.envMove := rfl
@[simp] theorem State.withMem_tick (m : Memory) (s : State) :
    (State.withMem m s).tick = s.tick := rfl
@[simp] theorem State.withMem_output (m : Memory) (s : State) :
    (State.withMem m s).output = s.output := rfl
@[simp] theorem State.withMem_params (m : Memory) (s : State) :
    (State.withMem m s).params = s.params := rfl

@[simp] theorem State.withReg_mem (i : Fin 8) (v : Word) (s : State) :
    (State.withReg i v s).mem = s.mem := rfl
@[simp] theorem State.withReg_x (i : Fin 8) (v : Word) (s : State) :
    (State.withReg i v s).x = s.x.set i.val v := rfl
@[simp] theorem State.withReg_pc (i : Fin 8) (v : Word) (s : State) :
    (State.withReg i v s).pc = s.pc := rfl
@[simp] theorem State.withReg_stack (i : Fin 8) (v : Word) (s : State) :
    (State.withReg i v s).stack = s.stack := rfl
@[simp] theorem State.withReg_run (i : Fin 8) (v : Word) (s : State) :
    (State.withReg i v s).run = s.run := rfl
@[simp] theorem State.withReg_ioWait (i : Fin 8) (v : Word) (s : State) :
    (State.withReg i v s).ioWait = s.ioWait := rfl
@[simp] theorem State.withReg_outClosed (i : Fin 8) (v : Word) (s : State) :
    (State.withReg i v s).outClosed = s.outClosed := rfl
@[simp] theorem State.withReg_cancel (i : Fin 8) (v : Word) (s : State) :
    (State.withReg i v s).cancel = s.cancel := rfl
@[simp] theorem State.withReg_envMove (i : Fin 8) (v : Word) (s : State) :
    (State.withReg i v s).envMove = s.envMove := rfl
@[simp] theorem State.withReg_tick (i : Fin 8) (v : Word) (s : State) :
    (State.withReg i v s).tick = s.tick := rfl
@[simp] theorem State.withReg_output (i : Fin 8) (v : Word) (s : State) :
    (State.withReg i v s).output = s.output := rfl
@[simp] theorem State.withReg_params (i : Fin 8) (v : Word) (s : State) :
    (State.withReg i v s).params = s.params := rfl

@[simp] theorem State.withPc_mem (p : Word) (s : State) :
    (State.withPc p s).mem = s.mem := rfl
@[simp] theorem State.withPc_x (p : Word) (s : State) :
    (State.withPc p s).x = s.x := rfl
@[simp] theorem State.withPc_pc (p : Word) (s : State) :
    (State.withPc p s).pc = p := rfl
@[simp] theorem State.withPc_stack (p : Word) (s : State) :
    (State.withPc p s).stack = s.stack := rfl
@[simp] theorem State.withPc_run (p : Word) (s : State) :
    (State.withPc p s).run = s.run := rfl
@[simp] theorem State.withPc_ioWait (p : Word) (s : State) :
    (State.withPc p s).ioWait = s.ioWait := rfl
@[simp] theorem State.withPc_outClosed (p : Word) (s : State) :
    (State.withPc p s).outClosed = s.outClosed := rfl
@[simp] theorem State.withPc_cancel (p : Word) (s : State) :
    (State.withPc p s).cancel = s.cancel := rfl
@[simp] theorem State.withPc_envMove (p : Word) (s : State) :
    (State.withPc p s).envMove = s.envMove := rfl
@[simp] theorem State.withPc_tick (p : Word) (s : State) :
    (State.withPc p s).tick = s.tick := rfl
@[simp] theorem State.withPc_output (p : Word) (s : State) :
    (State.withPc p s).output = s.output := rfl
@[simp] theorem State.withPc_params (p : Word) (s : State) :
    (State.withPc p s).params = s.params := rfl

@[simp] theorem State.withStack_mem (st : List Word) (s : State) :
    (State.withStack st s).mem = s.mem := rfl
@[simp] theorem State.withStack_x (st : List Word) (s : State) :
    (State.withStack st s).x = s.x := rfl
@[simp] theorem State.withStack_pc (st : List Word) (s : State) :
    (State.withStack st s).pc = s.pc := rfl
@[simp] theorem State.withStack_stack (st : List Word) (s : State) :
    (State.withStack st s).stack = st := rfl
@[simp] theorem State.withStack_run (st : List Word) (s : State) :
    (State.withStack st s).run = s.run := rfl
@[simp] theorem State.withStack_ioWait (st : List Word) (s : State) :
    (State.withStack st s).ioWait = s.ioWait := rfl
@[simp] theorem State.withStack_outClosed (st : List Word) (s : State) :
    (State.withStack st s).outClosed = s.outClosed := rfl
@[simp] theorem State.withStack_cancel (st : List Word) (s : State) :
    (State.withStack st s).cancel = s.cancel := rfl
@[simp] theorem State.withStack_envMove (st : List Word) (s : State) :
    (State.withStack st s).envMove = s.envMove := rfl
@[simp] theorem State.withStack_tick (st : List Word) (s : State) :
    (State.withStack st s).tick = s.tick := rfl
@[simp] theorem State.withStack_output (st : List Word) (s : State) :
    (State.withStack st s).output = s.output := rfl
@[simp] theorem State.withStack_params (st : List Word) (s : State) :
    (State.withStack st s).params = s.params := rfl

@[simp] theorem State.withWait_mem (w : IoWait) (s : State) :
    (State.withWait w s).mem = s.mem := rfl
@[simp] theorem State.withWait_x (w : IoWait) (s : State) :
    (State.withWait w s).x = s.x := rfl
@[simp] theorem State.withWait_pc (w : IoWait) (s : State) :
    (State.withWait w s).pc = s.pc := rfl
@[simp] theorem State.withWait_stack (w : IoWait) (s : State) :
    (State.withWait w s).stack = s.stack := rfl
@[simp] theorem State.withWait_run (w : IoWait) (s : State) :
    (State.withWait w s).run = s.run := rfl
@[simp] theorem State.withWait_ioWait (w : IoWait) (s : State) :
    (State.withWait w s).ioWait = w := rfl
@[simp] theorem State.withWait_outClosed (w : IoWait) (s : State) :
    (State.withWait w s).outClosed = s.outClosed := rfl
@[simp] theorem State.withWait_cancel (w : IoWait) (s : State) :
    (State.withWait w s).cancel = s.cancel := rfl
@[simp] theorem State.withWait_envMove (w : IoWait) (s : State) :
    (State.withWait w s).envMove = s.envMove := rfl
@[simp] theorem State.withWait_tick (w : IoWait) (s : State) :
    (State.withWait w s).tick = s.tick := rfl
@[simp] theorem State.withWait_output (w : IoWait) (s : State) :
    (State.withWait w s).output = s.output := rfl
@[simp] theorem State.withWait_params (w : IoWait) (s : State) :
    (State.withWait w s).params = s.params := rfl

@[simp] theorem State.emit_mem (v : Word) (s : State) :
    (State.emit v s).mem = s.mem := rfl
@[simp] theorem State.emit_x (v : Word) (s : State) :
    (State.emit v s).x = s.x := rfl
@[simp] theorem State.emit_pc (v : Word) (s : State) :
    (State.emit v s).pc = s.pc := rfl
@[simp] theorem State.emit_stack (v : Word) (s : State) :
    (State.emit v s).stack = s.stack := rfl
@[simp] theorem State.emit_run (v : Word) (s : State) :
    (State.emit v s).run = s.run := rfl
@[simp] theorem State.emit_ioWait (v : Word) (s : State) :
    (State.emit v s).ioWait = s.ioWait := rfl
@[simp] theorem State.emit_outClosed (v : Word) (s : State) :
    (State.emit v s).outClosed = s.outClosed := rfl
@[simp] theorem State.emit_cancel (v : Word) (s : State) :
    (State.emit v s).cancel = s.cancel := rfl
@[simp] theorem State.emit_envMove (v : Word) (s : State) :
    (State.emit v s).envMove = s.envMove := rfl
@[simp] theorem State.emit_tick (v : Word) (s : State) :
    (State.emit v s).tick = s.tick := rfl
@[simp] theorem State.emit_output (v : Word) (s : State) :
    (State.emit v s).output = s.output ++ [v] := rfl
@[simp] theorem State.emit_params (v : Word) (s : State) :
    (State.emit v s).params = s.params := rfl

@[simp] theorem State.advance_mem (n : Nat) (s : State) :
    (State.advance n s).mem = s.mem := rfl
@[simp] theorem State.advance_x (n : Nat) (s : State) :
    (State.advance n s).x = s.x := rfl
@[simp] theorem State.advance_pc (n : Nat) (s : State) :
    (State.advance n s).pc = BitVec.ofNat 16 (s.pc.toNat + n) := rfl
@[simp] theorem State.advance_stack (n : Nat) (s : State) :
    (State.advance n s).stack = s.stack := rfl
@[simp] theorem State.advance_run (n : Nat) (s : State) :
    (State.advance n s).run = s.run := rfl
@[simp] theorem State.advance_ioWait (n : Nat) (s : State) :
    (State.advance n s).ioWait = s.ioWait := rfl
@[simp] theorem State.advance_outClosed (n : Nat) (s : State) :
    (State.advance n s).outClosed = s.outClosed := rfl
@[simp] theorem State.advance_cancel (n : Nat) (s : State) :
    (State.advance n s).cancel = s.cancel := rfl
@[simp] theorem State.advance_envMove (n : Nat) (s : State) :
    (State.advance n s).envMove = s.envMove := rfl
@[simp] theorem State.advance_tick (n : Nat) (s : State) :
    (State.advance n s).tick = s.tick := rfl
@[simp] theorem State.advance_output (n : Nat) (s : State) :
    (State.advance n s).output = s.output := rfl
@[simp] theorem State.advance_params (n : Nat) (s : State) :
    (State.advance n s).params = s.params := rfl

@[simp] theorem State.halt_mem (r : HaltReason) (s : State) :
    (State.halt r s).mem = s.mem := rfl
@[simp] theorem State.halt_x (r : HaltReason) (s : State) :
    (State.halt r s).x = s.x := rfl
@[simp] theorem State.halt_pc (r : HaltReason) (s : State) :
    (State.halt r s).pc = s.pc := rfl
@[simp] theorem State.halt_stack (r : HaltReason) (s : State) :
    (State.halt r s).stack = s.stack := rfl
@[simp] theorem State.halt_run (r : HaltReason) (s : State) :
    (State.halt r s).run = .halted r := rfl
@[simp] theorem State.halt_ioWait (r : HaltReason) (s : State) :
    (State.halt r s).ioWait = s.ioWait := rfl
@[simp] theorem State.halt_outClosed (r : HaltReason) (s : State) :
    (State.halt r s).outClosed = true := rfl
@[simp] theorem State.halt_cancel (r : HaltReason) (s : State) :
    (State.halt r s).cancel = s.cancel := rfl
@[simp] theorem State.halt_envMove (r : HaltReason) (s : State) :
    (State.halt r s).envMove = s.envMove := rfl
@[simp] theorem State.halt_tick (r : HaltReason) (s : State) :
    (State.halt r s).tick = s.tick := rfl
@[simp] theorem State.halt_output (r : HaltReason) (s : State) :
    (State.halt r s).output = s.output := rfl
@[simp] theorem State.halt_params (r : HaltReason) (s : State) :
    (State.halt r s).params = s.params := rfl

@[simp] theorem State.raise_mem (k : FaultKind) (s : State) :
    (State.raise k s).mem = s.mem := rfl
@[simp] theorem State.raise_x (k : FaultKind) (s : State) :
    (State.raise k s).x = s.x := rfl
@[simp] theorem State.raise_pc (k : FaultKind) (s : State) :
    (State.raise k s).pc = s.pc := rfl
@[simp] theorem State.raise_stack (k : FaultKind) (s : State) :
    (State.raise k s).stack = s.stack := rfl
@[simp] theorem State.raise_run (k : FaultKind) (s : State) :
    (State.raise k s).run = .faulted k := rfl
@[simp] theorem State.raise_ioWait (k : FaultKind) (s : State) :
    (State.raise k s).ioWait = .none := rfl
@[simp] theorem State.raise_outClosed (k : FaultKind) (s : State) :
    (State.raise k s).outClosed = true := rfl
@[simp] theorem State.raise_cancel (k : FaultKind) (s : State) :
    (State.raise k s).cancel = s.cancel := rfl
@[simp] theorem State.raise_envMove (k : FaultKind) (s : State) :
    (State.raise k s).envMove = s.envMove := rfl
@[simp] theorem State.raise_tick (k : FaultKind) (s : State) :
    (State.raise k s).tick = s.tick := rfl
@[simp] theorem State.raise_output (k : FaultKind) (s : State) :
    (State.raise k s).output = s.output := rfl
@[simp] theorem State.raise_params (k : FaultKind) (s : State) :
    (State.raise k s).params = s.params := rfl

@[simp] theorem State.pollEnv_mem (s : State) :
    (State.pollEnv s).mem = s.mem := rfl
@[simp] theorem State.pollEnv_x (s : State) :
    (State.pollEnv s).x = s.x := rfl
@[simp] theorem State.pollEnv_pc (s : State) :
    (State.pollEnv s).pc = s.pc := rfl
@[simp] theorem State.pollEnv_stack (s : State) :
    (State.pollEnv s).stack = s.stack := rfl
@[simp] theorem State.pollEnv_run (s : State) :
    (State.pollEnv s).run = s.run := rfl
@[simp] theorem State.pollEnv_ioWait (s : State) :
    (State.pollEnv s).ioWait = s.ioWait := rfl
@[simp] theorem State.pollEnv_outClosed (s : State) :
    (State.pollEnv s).outClosed = s.outClosed := rfl
@[simp] theorem State.pollEnv_cancel (s : State) :
    (State.pollEnv s).cancel = (s.cancel || Config.raisesCancel s.tick) := rfl
@[simp] theorem State.pollEnv_envMove (s : State) :
    (State.pollEnv s).envMove = Config.envMove s.tick := rfl
@[simp] theorem State.pollEnv_tick (s : State) :
    (State.pollEnv s).tick = s.tick + 1 := rfl
@[simp] theorem State.pollEnv_output (s : State) :
    (State.pollEnv s).output = s.output := rfl
@[simp] theorem State.pollEnv_params (s : State) :
    (State.pollEnv s).params = s.params := rfl

@[simp] theorem State.reg_withReg_same (i : Fin 8) (v : Word) (s : State) :
    (State.withReg i v s).reg i = v := by
  simp [State.reg]

@[simp] theorem State.reg_withReg_other {i j : Fin 8} (v : Word) (s : State) (h : j ≠ i) :
    (State.withReg i v s).reg j = s.reg j := by
  have : i.val ≠ j.val := fun e => h (Fin.ext e.symm)
  simp [State.reg, this]

/-- Registers are read from the register file alone. -/
theorem State.reg_congr {s t : State} (h : t.x = s.x) (i : Fin 8) : t.reg i = s.reg i := by
  simp [State.reg, h]

end Sys2Proof.Machine
end

