-- ==== Sys2Proof/Laws/Ops.lean ====
section
/-! SUPPORT. For each shared operation, what it can do: the facts a proof cites instead of unfolding it. -/

namespace Sys2Proof.Machine

@[simp] theorem commit_ok (s t : State) : commit s (.ok t) = t := rfl

@[simp] theorem commit_error (s : State) (k : FaultKind) : commit s (.error k) = s.raise k := rfl

@[simp] theorem settle_eq (s : State) (r : Except FaultKind State) :
    settle s r = .next (commit s r) := rfl

@[simp] theorem onNext_next (f : State → State) (s : State) : onNext f (.next s) = .next (f s) := rfl

@[simp] theorem resolve_lit (w : Word) (s : State) : resolve (.lit w) s = w := rfl

@[simp] theorem resolve_reg (i : Fin 8) (s : State) : resolve (.reg i) s = s.reg i := rfl

/-- `Resolve` reads the register file alone (R126). -/
theorem resolve_congr {s t : State} (h : SameRegs s t) (o : Operand) :
    resolve o t = resolve o s := by
  cases o with
  | lit w => rfl
  | reg i => exact h i

theorem Operand.wellFormed_lit {w : Word} : (Operand.lit w).WellFormed ↔ w.toNat < 32768 := by
  simp [Operand.WellFormed, Operand.wellFormed]

/-! ### Frames -/

theorem SameRest.refl (s : State) : SameRest s s := ⟨rfl, rfl, rfl, rfl, rfl, rfl, rfl⟩

theorem SameMem.refl (s : State) : SameMem s s := fun _ => rfl

theorem SameRegs.refl (s : State) : SameRegs s s := fun _ => rfl

/-- A fault changes what R260 names. -/
theorem raise_eq (s : State) (k : FaultKind) :
    s.raise k = { s with run := .faulted k, ioWait := .none, outClosed := true } := rfl

/-- What a successful memory write leaves (R64). -/
theorem memWrite_ok {a : Word} (h : a.toNat < 32768) (v : Word) (s : State) :
    memWrite a v s = .ok (s.withMem (s.mem.writeWord a.toNat v)) := by
  simp [memWrite, h]

theorem memWrite_out {a : Word} (h : 32768 ≤ a.toNat) (v : Word) (s : State) :
    memWrite a v s = .error .memoryOutOfRange := by
  simp [memWrite, Nat.not_lt.mpr h]

theorem memRead_ok {a : Word} (h : a.toNat < 32768) (s : State) :
    memRead a s = .ok (s.mem.readWord a.toNat) := by
  simp [memRead, h]

theorem memRead_out {a : Word} (h : 32768 ≤ a.toNat) (s : State) :
    memRead a s = .error .memoryOutOfRange := by
  simp [memRead, Nat.not_lt.mpr h]

theorem withMem_writeWord_mem (s : State) (k : Nat) (v : Word) :
    SameMemBut k s (s.withMem (s.mem.writeWord k v)) :=
  fun a h => by simp [Memory.readByte_writeWord_other _ _ _ _ h]

/-- `WriteTo` through a well-formed destination succeeds, stores, and changes registers and memory only
as `Stored` says (R127). -/
theorem writeTo_ok {d : Operand} (hd : d.WellFormed) (v : Word) (s : State) :
    ∃ t, writeTo d v s = .ok t ∧ Stored d v s t ∧ t.pc = s.pc ∧ t.stack = s.stack ∧
      t.ioWait = s.ioWait ∧ SameRest s t := by
  cases d with
  | reg i =>
    exact ⟨s.withReg i v, rfl,
      ⟨State.reg_withReg_same i v s, fun j h => State.reg_withReg_other v s h, SameMem.refl s⟩,
      rfl, rfl, rfl, rfl, rfl, rfl, rfl, rfl, rfl, rfl⟩
  | lit w =>
    exact ⟨_, memWrite_ok (Operand.wellFormed_lit.mp hd) v s,
      ⟨by simp, withMem_writeWord_mem s _ v, SameRegs.refl s⟩,
      rfl, rfl, rfl, rfl, rfl, rfl, rfl, rfl, rfl, rfl⟩

/-- What `WriteTo` can do through any destination: write a register, write a Word inside memory, or refuse
an address outside it. -/
theorem writeTo_cases (d : Operand) (v : Word) (s : State) :
    (∃ i, d = .reg i ∧ writeTo d v s = .ok (s.withReg i v)) ∨
    (∃ w : Word, d = .lit w ∧ w.toNat < 32768 ∧
      writeTo d v s = .ok (s.withMem (s.mem.writeWord w.toNat v))) ∨
    (∃ w : Word, d = .lit w ∧ 32768 ≤ w.toNat ∧ writeTo d v s = .error .memoryOutOfRange) := by
  cases d with
  | reg i => exact .inl ⟨i, rfl, rfl⟩
  | lit w =>
    rcases Nat.lt_or_ge w.toNat 32768 with h | h
    · exact .inr (.inl ⟨w, rfl, h, memWrite_ok h v s⟩)
    · exact .inr (.inr ⟨w, rfl, h, memWrite_out h v s⟩)

/-- The shared end of the storing instructions, through a well-formed destination. -/
theorem storeAdvance_ok {d : Operand} (hd : d.WellFormed) (v : Word) (n : Nat) (s : State) :
    ∃ t, storeAdvance d v n s = .ok t ∧ Stored d v s t ∧
      t.pc = BitVec.ofNat 16 (s.pc.toNat + n) ∧ t.stack = s.stack ∧ t.ioWait = s.ioWait ∧
      SameRest s t := by
  obtain ⟨t, ht, hs, hpc, hst, hw, hr⟩ := writeTo_ok hd v s
  refine ⟨t.advance n, by simp [storeAdvance, ht, Except.map], ?_, by simp [hpc], by simp [hst],
    by simp [hw], ⟨hr.1, hr.2, hr.3, hr.4, hr.5, hr.6, hr.7⟩⟩
  cases d <;> exact hs

/-- What the shared end of the storing instructions can do. -/
theorem storeAdvance_cases (d : Operand) (v : Word) (n : Nat) (s : State) :
    (∃ i, d = .reg i ∧ storeAdvance d v n s = .ok ((s.withReg i v).advance n)) ∨
    (∃ w : Word, d = .lit w ∧ w.toNat < 32768 ∧
      storeAdvance d v n s = .ok ((s.withMem (s.mem.writeWord w.toNat v)).advance n)) ∨
    (∃ w : Word, d = .lit w ∧ 32768 ≤ w.toNat ∧
      storeAdvance d v n s = .error .memoryOutOfRange) := by
  rcases writeTo_cases d v s with ⟨i, rfl, h⟩ | ⟨w, rfl, hw, h⟩ | ⟨w, rfl, hw, h⟩
  · exact .inl ⟨i, rfl, by simp [storeAdvance, h, Except.map]⟩
  · exact .inr (.inl ⟨w, rfl, hw, by simp [storeAdvance, h, Except.map]⟩)
  · exact .inr (.inr ⟨w, rfl, hw, by simp [storeAdvance, h, Except.map]⟩)

/-! ### The stack engine -/

theorem push_ok {s : State} (h : s.params.stackLimit ≠ some s.stack.length) (v : Word) :
    push v s = .ok (s.withStack (s.stack ++ [v])) := by
  simp [push, h]

theorem push_full {s : State} (h : s.params.stackLimit = some s.stack.length) (v : Word) :
    push v s = .error .stackOverflow := by
  simp [push, h]

theorem pop_ok {s : State} {v : Word} {rest : List Word} (h : s.stack = rest ++ [v]) :
    pop s = .ok (v, s.withStack rest) := by
  simp [pop, h]

theorem pop_empty {s : State} (h : s.stack = []) : pop s = .error .underflow := by
  simp [pop, h]

/-- What `Pop` can do (R151). -/
theorem pop_cases (s : State) :
    (s.stack = [] ∧ pop s = .error .underflow) ∨
    ∃ v rest, s.stack = rest ++ [v] ∧ pop s = .ok (v, s.withStack rest) := by
  rcases List.eq_nil_or_concat s.stack with h | ⟨rest, v, h⟩
  · exact .inl ⟨h, pop_empty h⟩
  · rw [List.concat_eq_append] at h
    exact .inr ⟨v, rest, h, pop_ok h⟩

/-! ### The gateway -/

theorem unserved_cancelled {s : State} (h : s.cancel = true) :
    unserved s = { s with run := .halted .cancelled, ioWait := .none, outClosed := true } := by
  unfold unserved
  rw [if_pos h]
  rfl

theorem unserved_waiting {s : State} (h : s.cancel = false) : unserved s = s := by
  unfold unserved
  rw [if_neg (by rw [h]; decide)]

/-- Outcome Complete of a suspended OUT (R236 a). -/
theorem rendezvous_send_take {s : State} {v : Word} (h : s.ioWait = .waitSend v)
    (hm : s.envMove = .take) : rendezvous s = completeSend v s := by
  simp [rendezvous, h, hm]

/-- Outcome Timeout (R236 c). -/
theorem rendezvous_expire {s : State} (h : s.ioWait ≠ .none) (hm : s.envMove = .expire) :
    rendezvous s = timeout s := by
  cases hw : s.ioWait with
  | none => exact absurd hw h
  | waitSend v => simp [rendezvous, hw, hm]
  | waitReceive d => simp [rendezvous, hw, hm]

/-- A suspended OUT that is neither taken nor timed out. -/
theorem rendezvous_send_unserved {s : State} {v : Word} (h : s.ioWait = .waitSend v)
    (h1 : s.envMove ≠ .take) (h2 : s.envMove ≠ .expire) : rendezvous s = unserved s := by
  cases hm : s.envMove <;> first | exact absurd hm h1 | exact absurd hm h2 | simp [rendezvous, h, hm]

/-- Outcome Complete of a suspended IN (R236 a). -/
theorem rendezvous_receive_give {s : State} {d : Operand} {ch : Word} (h : s.ioWait = .waitReceive d)
    (hm : s.envMove = .give ch) (ha : admits s.params ch = true) :
    rendezvous s = completeReceive d ch s := by
  simp [rendezvous, h, hm, ha]

/-- A suspended IN that is neither given an admitted character nor timed out. -/
theorem rendezvous_receive_unserved {s : State} {d : Operand} (h : s.ioWait = .waitReceive d)
    (h1 : ∀ ch, s.envMove = .give ch → admits s.params ch = false) (h2 : s.envMove ≠ .expire) :
    rendezvous s = unserved s := by
  cases hm : s.envMove with
  | give ch => simp [rendezvous, h, hm, h1 ch hm]
  | expire => exact absurd hm h2
  | idle => simp [rendezvous, h, hm]
  | take => simp [rendezvous, h, hm]
  | stop => simp [rendezvous, h, hm]

/-- INPUT_ALPHABET as a set of ranges (R242). -/
theorem admits_iff {p : Params} {ch : Word} : admits p ch = true ↔
    ∃ r ∈ p.inputAlphabet, r.1.toNat ≤ ch.toNat ∧ ch.toNat ≤ r.2.toNat := by
  unfold admits
  rw [List.any_eq_true]
  simp only [decide_eq_true_eq]

/-- JT takes exactly the non-zero Words as true (R202). -/
theorem truthy_iff (v : Word) : truthy v = true ↔ v ≠ 0 := by
  simp only [truthy, decide_eq_true_eq, ne_eq, not_iff_not]
  exact ⟨fun h => BitVec.eq_of_toNat_eq h, fun h => by rw [h]; rfl⟩

/-- The masked complement is `32767 - B[14:0]` (R178). -/
theorem toNat_notWord (b : Word) : (notWord b).toNat = 32767 - b.toNat % 32768 := by
  have hb := b.isLt
  rw [notWord, BitVec.toNat_and, BitVec.toNat_not]
  show (2 ^ 16 - 1 - b.toNat) &&& (2 ^ 15 - 1) = _
  rw [Nat.and_two_pow_sub_one_eq_mod]
  omega

/-- A checked data write keeps the canonical form (R64). -/
theorem memWrite_wf {a v : Word} {s t : State} (hs : s.mem.wf) (h : memWrite a v s = .ok t) :
    t.mem.wf := by
  unfold memWrite at h
  split at h
  · next ha => cases h; exact Memory.wf_writeWord hs v ha
  · cases h

end Sys2Proof.Machine
end

