-- ==== Sys2Proof/Laws/Step.lean ====
section
/-! SUPPORT. What one instruction and one step can do: the inversion lemmas that invariants and frames are
derived from. -/

namespace Sys2Proof.Machine

/-! ### Fetch and decode -/

/-- Fetch where four Words fit (R122). -/
theorem fetch_ok {s : State} (h : s.pc.toNat ≤ 32764) :
    fetch s = .ok ⟨s.mem.readWord s.pc.toNat, s.mem.readWord (s.pc.toNat + 1),
      s.mem.readWord (s.pc.toNat + 2), s.mem.readWord (s.pc.toNat + 3)⟩ := by
  have h' : ¬ s.pc.toNat > 32768 - 1 - 3 := by omega
  simp only [fetch, Config.memWords, Config.maxOperands, if_neg h']

/-- Fetch where four Words do not fit (R122). -/
theorem fetch_out {s : State} (h : 32764 < s.pc.toNat) : fetch s = .error .fetchOutOfRange := by
  have h' : s.pc.toNat > 32768 - 1 - 3 := by omega
  simp only [fetch, Config.memWords, Config.maxOperands, if_pos h']

/-- Fetch reads memory and `pc` alone. -/
theorem fetchInstr_congr {s t : State} (hm : t.mem = s.mem) (hp : t.pc = s.pc) :
    fetchInstr t = fetchInstr s := by
  simp only [fetchInstr, fetch, hm, hp]

/-- An instruction that is fetched lies in memory and decodes from its four Words. -/
theorem fetchInstr_eq_ok {s : State} {i : Instr} :
    fetchInstr s = .ok i ↔ s.pc.toNat ≤ 32764 ∧
      decode ⟨s.mem.readWord s.pc.toNat, s.mem.readWord (s.pc.toNat + 1),
        s.mem.readWord (s.pc.toNat + 2), s.mem.readWord (s.pc.toNat + 3)⟩ = .ok i := by
  unfold fetchInstr
  rcases Nat.lt_or_ge 32764 s.pc.toNat with h | h
  · simp only [fetch_out h, reduceCtorEq, false_iff, not_and]
    omega
  · rw [fetch_ok h]
    simp only [h, true_and]
    split <;> simp_all

/-! ### One instruction -/

/-- The fault an instruction raises by its own condition (R271, step 5). -/
def OwnFault : Instr → FaultKind → Prop
  | .pop _, k => k = .underflow
  | .rmem _ _, k => k = .memoryOutOfRange
  | .wmem _ _, k => k = .memoryOutOfRange
  | .mod _ _ _, k => k = .divideByZero
  | .push _, k => k = .stackOverflow
  | .call _, k => k = .stackOverflow
  | _, _ => False

/-- `st` is the stack with one Word pushed, the limit not reached (R150). -/
def Pushed (s : State) (st : List Word) : Prop :=
  s.params.stackLimit ≠ some s.stack.length ∧ ∃ v, st = s.stack ++ [v]

/-- `st` is the stack with its top popped (R151). -/
def Popped (s : State) (st : List Word) : Prop := ∃ v, s.stack = st ++ [v]

/-- Everything an instruction can do: one constructor per kind of effect, with what the instruction must
then be. -/
inductive Effect (i : Instr) (s : State) : State → Prop
  /-- It raises its own fault, or the fault of an ill-formed destination. -/
  | raise (k : FaultKind) (h : OwnFault i k ∨
      k = .memoryOutOfRange ∧ ∃ w : Word, destOf i = some (.lit w) ∧ 32768 ≤ w.toNat) :
      Effect i s (s.raise k)
  /-- HALT ends the run. -/
  | halt (h : i = .halt) : Effect i s (s.halt .haltInstruction)
  /-- RET on an empty stack ends the run. -/
  | emptyReturn (h : i = .ret) (hs : s.stack = []) : Effect i s (s.halt .emptyReturn)
  /-- It sets `pc`, and the stack if it is a stack instruction; it has no destination. -/
  | move (p : Word) (st : List Word) (hd : destOf i = none)
      (h : st = s.stack ∨ i = .ret ∧ Popped s st ∨
        (∃ a, i = .push a ∨ i = .call a) ∧ Pushed s st) :
      Effect i s ((s.withStack st).withPc p)
  /-- It writes its destination register, and pops if it is POP. -/
  | reg (j : Fin 8) (v : Word) (n : Nat) (st : List Word) (hd : destOf i = some (.reg j))
      (h : st = s.stack ∨ (∃ a, i = .pop a) ∧ Popped s st) :
      Effect i s (((s.withStack st).withReg j v).advance n)
  /-- It writes the memory Word its literal destination names, and pops if it is POP. -/
  | cell (w v : Word) (n : Nat) (st : List Word) (hd : destOf i = some (.lit w))
      (hw : w.toNat < 32768) (h : st = s.stack ∨ (∃ a, i = .pop a) ∧ Popped s st) :
      Effect i s (((s.withStack st).withMem (s.mem.writeWord w.toNat v)).advance n)
  /-- WMEM writes the memory Word at its first operand's value. -/
  | wmem (a b : Operand) (v : Word) (h : i = .wmem a b) (hw : (resolve a s).toNat < 32768) :
      Effect i s ((s.withMem (s.mem.writeWord (resolve a s).toNat v)).advance 3)
  /-- OUT sends. -/
  | send (a : Operand) (h : i = .out a) : Effect i s (send (resolve a s) s)
  /-- IN receives. -/
  | receive (a : Operand) (h : i = .inp a) : Effect i s (receive a s)

/-- The storing instructions' effect. -/
theorem Effect.of_store {i : Instr} {d : Operand} (hd : destOf i = some d) (v : Word) (n : Nat)
    {st : List Word} {s : State} (h : st = s.stack ∨ (∃ a, i = .pop a) ∧ Popped s st) :
    Effect i s (commit s (storeAdvance d v n (s.withStack st))) := by
  rcases storeAdvance_cases d v n (s.withStack st) with
    ⟨j, rfl, e⟩ | ⟨w, rfl, hw, e⟩ | ⟨w, rfl, hw, e⟩
  · rw [e]; exact .reg j v n st hd h
  · rw [e]; exact .cell w v n st hd hw h
  · rw [e]; exact .raise _ (.inr ⟨rfl, w, hd, hw⟩)

/-- The inversion lemma of `exec`. -/
theorem exec_effect {i : Instr} {s u : State} (h : exec i s = .next u) : Effect i s u := by
  have store {d : Operand} (hd : destOf i = some d) (v : Word) (n : Nat) :
      Effect i s (commit s (storeAdvance d v n s)) := Effect.of_store hd v n (.inl rfl)
  cases i with
  | halt => cases h; exact .halt rfl
  | set a b => cases h; exact store rfl _ _
  | push a =>
    cases h
    by_cases hl : s.params.stackLimit = some s.stack.length
    · rw [push_full hl]; exact .raise _ (.inl rfl)
    · rw [push_ok hl]; exact .move _ _ rfl (.inr (.inr ⟨⟨a, .inl rfl⟩, hl, _, rfl⟩))
  | pop a =>
    cases h
    rcases pop_cases s with ⟨_, e⟩ | ⟨v, rest, he, e⟩
    · rw [e]; exact .raise _ (.inl rfl)
    · rw [e]; exact Effect.of_store rfl v 2 (.inr ⟨⟨a, rfl⟩, v, he⟩)
  | eq a b c => cases h; exact store rfl _ _
  | gt a b c => cases h; exact store rfl _ _
  | jmp a => cases h; exact .move _ s.stack rfl (.inl rfl)
  | jt a b =>
    cases h
    unfold jumpIf
    split <;> exact .move _ s.stack rfl (.inl rfl)
  | jf a b =>
    cases h
    unfold jumpIf
    split <;> exact .move _ s.stack rfl (.inl rfl)
  | add a b c => cases h; exact store rfl _ _
  | mult a b c => cases h; exact store rfl _ _
  | mod a b c =>
    cases h
    unfold modWord
    split
    · exact .raise _ (.inl rfl)
    · exact store rfl _ _
  | and a b c => cases h; exact store rfl _ _
  | or a b c => cases h; exact store rfl _ _
  | not a b => cases h; exact store rfl _ _
  | rmem a b =>
    cases h
    rcases Nat.lt_or_ge (resolve b s).toNat 32768 with hb | hb
    · rw [memRead_ok hb]; exact store rfl _ _
    · rw [memRead_out hb]; exact .raise _ (.inl rfl)
  | wmem a b =>
    cases h
    rcases Nat.lt_or_ge (resolve a s).toNat 32768 with ha | ha
    · rw [memWrite_ok ha]; exact .wmem a b _ rfl ha
    · rw [memWrite_out ha]; exact .raise _ (.inl rfl)
  | call a =>
    cases h
    by_cases hl : s.params.stackLimit = some s.stack.length
    · rw [push_full hl]; exact .raise _ (.inl rfl)
    · rw [push_ok hl]; exact .move _ _ rfl (.inr (.inr ⟨⟨a, .inr rfl⟩, hl, _, rfl⟩))
  | ret =>
    simp only [exec, execRet] at h
    rcases pop_cases s with ⟨he, _⟩ | ⟨v, rest, he, e⟩
    · simp only [stackEmpty, he, List.isEmpty_nil, if_true, Host.Outcome.next.injEq] at h
      exact h ▸ .emptyReturn rfl he
    · have hne : stackEmpty s = false := by simp [stackEmpty, he]
      simp only [hne, Bool.false_eq_true, if_false, e, settle_eq, Except.map, commit_ok,
        Host.Outcome.next.injEq] at h
      exact h ▸ .move _ _ rfl (.inr (.inl ⟨rfl, v, he⟩))
  | out a => cases h; exact .send a rfl
  | inp a => cases h; exact .receive a rfl
  | noop => cases h; exact .move _ s.stack rfl (.inl rfl)

/-- Everything one step of a suspended rendezvous can do. -/
inductive Rendezvous (s : State) : State → Prop
  /-- It raises a fault: the watchdog's, or that of an ill-formed destination. -/
  | raise (k : FaultKind) (h : k = .ioWatchdogTimeout ∧ s.envMove = .expire ∨
      k = .memoryOutOfRange ∧ ∃ w : Word, s.ioWait = .waitReceive (.lit w) ∧ 32768 ≤ w.toNat) :
      Rendezvous s (s.raise k)
  /-- It is cancelled. -/
  | cancel (h : s.cancel = true) : Rendezvous s ((s.withWait .none).halt .cancelled)
  /-- It persists. -/
  | persist (h : s.cancel = false) : Rendezvous s s
  /-- The host takes the offered Word. -/
  | sent (v : Word) (h : s.ioWait = .waitSend v) (hm : s.envMove = .take) :
      Rendezvous s (((s.emit v).withWait .none).advance 2)
  /-- A character lands in a register. -/
  | reg (j : Fin 8) (ch : Word) (h : s.ioWait = .waitReceive (.reg j)) (hm : s.envMove = .give ch) :
      Rendezvous s (((s.withWait .none).withReg j ch).advance 2)
  /-- A character lands in memory. -/
  | cell (w ch : Word) (h : s.ioWait = .waitReceive (.lit w)) (hm : s.envMove = .give ch)
      (hw : w.toNat < 32768) :
      Rendezvous s (((s.withWait .none).withMem (s.mem.writeWord w.toNat ch)).advance 2)

/-- The inversion lemma of `rendezvous`. -/
theorem rendezvous_cases {s : State} (hw : s.ioWait ≠ .none) : Rendezvous s (rendezvous s) := by
  have unserved : Rendezvous s (unserved s) := by
    unfold unserved
    split
    · next h => exact .cancel h
    · next h => exact .persist (by simpa using h)
  cases h : s.ioWait with
  | none => exact absurd h hw
  | waitSend v =>
    by_cases h1 : s.envMove = .take
    · rw [rendezvous_send_take h h1]; exact .sent v h h1
    · by_cases h2 : s.envMove = .expire
      · rw [rendezvous_expire hw h2]; exact .raise _ (.inl ⟨rfl, h2⟩)
      · rw [rendezvous_send_unserved h h1 h2]; exact unserved
  | waitReceive d =>
    by_cases h2 : s.envMove = .expire
    · rw [rendezvous_expire hw h2]; exact .raise _ (.inl ⟨rfl, h2⟩)
    · by_cases h1 : ∀ ch, s.envMove = .give ch → admits s.params ch = false
      · rw [rendezvous_receive_unserved h h1 h2]; exact unserved
      · push Not at h1
        obtain ⟨ch, hm, ha⟩ := h1
        rw [rendezvous_receive_give h hm (by simpa using ha)]
        unfold completeReceive
        rcases storeAdvance_cases d ch 2 (s.withWait .none) with
          ⟨j, rfl, e⟩ | ⟨w, rfl, hw, e⟩ | ⟨w, rfl, hw, e⟩
        · rw [e]; exact .reg j ch h hm
        · rw [e]; exact .cell w ch h hm hw
        · rw [e]; exact .raise _ (.inr ⟨rfl, w, h, hw⟩)

/-- What OUT's suspension can do at once (R231). -/
theorem send_cases (v : Word) (s : State) :
    Rendezvous (s.withWait (.waitSend v)) (send v s) := rendezvous_cases (by simp)

/-- What IN's suspension can do at once (R232). -/
theorem receive_cases (d : Operand) (s : State) :
    Rendezvous (s.withWait (.waitReceive d)) (receive d s) := rendezvous_cases (by simp)

/-- The boundary stop needs `cancel = 1` and the environment's choice (R121). -/
theorem stopsAtBoundary_iff {s : State} :
    stopsAtBoundary s = true ↔ s.cancel = true ∧ s.envMove = .stop := by
  simp [stopsAtBoundary]

/-- Every instruction has a next state. -/
theorem exec_total (i : Instr) (s : State) : ∃ u, exec i s = .next u := by
  cases i <;> try exact ⟨_, rfl⟩
  simp only [exec, execRet]
  split <;> exact ⟨_, rfl⟩

/-! ### One step -/

/-- Everything a step with a next state can have done, before the environment's draw. -/
theorem step_cases {s t : State} (h : step s = .next t) :
    s.run = .running ∧ ∃ u, t = u.pollEnv ∧
      ((s.ioWait ≠ .none ∧ u = rendezvous s) ∨
        (s.ioWait = .none ∧ stopsAtBoundary s = true ∧ u = s.halt .cancelled) ∨
        (s.ioWait = .none ∧ stopsAtBoundary s = false ∧
          ∃ k, fetchInstr s = .error k ∧ u = s.raise k) ∨
        (s.ioWait = .none ∧ stopsAtBoundary s = false ∧
          ∃ i, fetchInstr s = .ok i ∧ exec i s = .next u)) := by
  unfold step turn at h
  cases hr : s.run with
  | halted r => simp [hr] at h
  | faulted k => simp [hr] at h
  | running =>
    refine ⟨rfl, ?_⟩
    simp only [hr] at h
    by_cases hw : s.ioWait = .none
    · simp only [hw, ne_eq, not_true_eq_false, if_false] at h
      cases hs : stopsAtBoundary s with
      | true =>
        simp only [hs, if_true, Host.Outcome.next.injEq] at h
        exact ⟨_, h.symm, .inr (.inl ⟨hw, rfl, rfl⟩)⟩
      | false =>
        simp only [hs, Bool.false_eq_true, if_false] at h
        cases hf : fetchInstr s with
        | error k =>
          simp only [hf, Host.Outcome.next.injEq] at h
          exact ⟨_, h.symm, .inr (.inr (.inl ⟨hw, rfl, k, rfl, rfl⟩))⟩
        | ok i =>
          obtain ⟨u, hu⟩ := exec_total i s
          simp only [hf, hu, onNext_next, Host.Outcome.next.injEq] at h
          exact ⟨u, h.symm, .inr (.inr (.inr ⟨hw, rfl, i, rfl, hu⟩))⟩
    · simp only [ne_eq, hw, not_false_eq_true, if_true, Host.Outcome.next.injEq] at h
      exact ⟨_, h.symm, .inl ⟨hw, rfl⟩⟩

/-- A boundary at which no stop is taken and an instruction is fetched runs it (R130). -/
theorem step_issue {s : State} {i : Instr} (hr : s.run = .running) (hw : s.ioWait = .none)
    (hs : stopsAtBoundary s = false) (hf : fetchInstr s = .ok i) :
    step s = onNext State.pollEnv (exec i s) := by
  simp [step, turn, hr, hw, hs, hf]

/-- A suspension takes one step of its rendezvous (R236). -/
theorem step_suspended {s : State} (hr : s.run = .running) (hw : s.ioWait ≠ .none) :
    step s = .next (rendezvous s).pollEnv := by
  simp [step, turn, hr, hw]

end Sys2Proof.Machine
end

