-- ==== Sys2Proof/Laws/Loader.lean ====
section
/-! SUPPORT. What the operations over whole runs of memory do: the image's Words, storing them, placing a
window; each keeps the canonical form. -/

namespace Sys2Proof.Machine

/-- An image of `L` bytes holds `L / 2` Words (R291). -/
theorem length_wordsOfBytes : ∀ bs : List Byte, (wordsOfBytes bs).length = bs.length / 2
  | [] => rfl
  | [_] => by simp [wordsOfBytes]
  | a :: b :: r => by simp [wordsOfBytes, length_wordsOfBytes r]; omega

/-- Word `k` of an image is its bytes `2k` and `2k + 1` (R291). -/
theorem getElem_wordsOfBytes : ∀ (bs : List Byte) (k : Nat) (h : 2 * k + 1 < bs.length),
    (wordsOfBytes bs)[k]'(by rw [length_wordsOfBytes]; omega) = joinBytes bs[2 * k] bs[2 * k + 1]
  | a :: b :: r, 0, h => rfl
  | a :: b :: r, k + 1, h => by
    have := getElem_wordsOfBytes r k (by simp at h; omega)
    simpa [wordsOfBytes, Nat.mul_add] using this

/-- What memory reads after Words are stored from address `k` on. -/
theorem readWord_storeWords : ∀ (ws : List Word) (m : Memory) (k j : Nat),
    (storeWords m k ws).readWord j =
      if h : k ≤ j ∧ j - k < ws.length then ws[j - k] else m.readWord j
  | [], m, k, j => by simp [storeWords]
  | w :: ws, m, k, j => by
    rw [storeWords, readWord_storeWords ws, Memory.readWord_writeWord]
    by_cases h1 : j = k
    · subst h1; simp
    · by_cases h2 : k + 1 ≤ j
      · have e : j - k = (j - (k + 1)) + 1 := by omega
        have : k ≤ j := by omega
        simp only [h2, true_and, List.length_cons, e, this, List.getElem_cons_succ,
          Nat.add_lt_add_iff_right, h1, if_false]
      · have : ¬ k ≤ j := by omega
        simp [h2, this, h1]

/-- Storing Words inside memory keeps the canonical form. -/
theorem wf_storeWords : ∀ (ws : List Word) (m : Memory) (k : Nat), m.wf →
    k + ws.length ≤ 32768 → (storeWords m k ws).wf
  | [], _, _, h, _ => h
  | w :: ws, m, k, h, hl =>
    wf_storeWords ws _ _ (Memory.wf_writeWord h _ (by simp at hl ⊢; omega)) (by simp at hl; omega)

/-- Placing a window inside memory keeps the canonical form. -/
theorem wf_placeWindow {m : Memory} (h : m.wf) {k : Nat} (hk : k ≤ 32764) (w : Window) :
    (placeWindow m k w).wf :=
  wf_storeWords [w.op, w.a, w.b, w.c] m k h (by simp; omega)

/-- A placed window reads back (log entry 8). -/
theorem fetch_placeNext (w : Window) (s : State) : fetch (placeNext w s) = .ok w := by
  have hp : (placeNext w s).pc.toNat ≤ 32764 := by
    simp only [placeNext, BitVec.toNat_ofNat, Config.memWords, Config.maxOperands]
    split <;> omega
  rw [fetch_ok hp]
  have e : (placeNext w s).mem =
      storeWords s.mem (placeNext w s).pc.toNat [w.op, w.a, w.b, w.c] := by
    have hm : s.pc.toNat % 65536 = s.pc.toNat := Nat.mod_eq_of_lt s.pc.isLt
    simp only [placeNext, placeWindow, storeWords, BitVec.toNat_ofNat, Config.memWords,
      Config.maxOperands]
    split <;> simp [hm]
  simp [e, readWord_storeWords]

end Sys2Proof.Machine
end

