-- ==== Sys2Proof/Laws/PerInstr.lean ====
section
/-! SUPPORT. A family of facts about every instruction as syntax: its encoding has its length, between 1
and 4 Words (R90). -/

namespace Sys2Proof.Laws.EncodingLength

/-- The encoding is as long as the instruction, and at least 1 and at most 4 Words. -/
def Statement (i : Instr) : Prop :=
  (encode i).length = i.length ∧ 1 ≤ i.length ∧ i.length ≤ 4

theorem halt : Statement .halt := by simp [Statement, encode, Instr.length, Instr.operands]
theorem set (a b : Operand) : Statement (.set a b) := by
  simp [Statement, encode, Instr.length, Instr.operands]
theorem push (a : Operand) : Statement (.push a) := by
  simp [Statement, encode, Instr.length, Instr.operands]
theorem pop (a : Operand) : Statement (.pop a) := by
  simp [Statement, encode, Instr.length, Instr.operands]
theorem eq (a b c : Operand) : Statement (.eq a b c) := by
  simp [Statement, encode, Instr.length, Instr.operands]
theorem gt (a b c : Operand) : Statement (.gt a b c) := by
  simp [Statement, encode, Instr.length, Instr.operands]
theorem jmp (a : Operand) : Statement (.jmp a) := by
  simp [Statement, encode, Instr.length, Instr.operands]
theorem jt (a b : Operand) : Statement (.jt a b) := by
  simp [Statement, encode, Instr.length, Instr.operands]
theorem jf (a b : Operand) : Statement (.jf a b) := by
  simp [Statement, encode, Instr.length, Instr.operands]
theorem add (a b c : Operand) : Statement (.add a b c) := by
  simp [Statement, encode, Instr.length, Instr.operands]
theorem mult (a b c : Operand) : Statement (.mult a b c) := by
  simp [Statement, encode, Instr.length, Instr.operands]
theorem mod (a b c : Operand) : Statement (.mod a b c) := by
  simp [Statement, encode, Instr.length, Instr.operands]
theorem and (a b c : Operand) : Statement (.and a b c) := by
  simp [Statement, encode, Instr.length, Instr.operands]
theorem or (a b c : Operand) : Statement (.or a b c) := by
  simp [Statement, encode, Instr.length, Instr.operands]
theorem not (a b : Operand) : Statement (.not a b) := by
  simp [Statement, encode, Instr.length, Instr.operands]
theorem rmem (a b : Operand) : Statement (.rmem a b) := by
  simp [Statement, encode, Instr.length, Instr.operands]
theorem wmem (a b : Operand) : Statement (.wmem a b) := by
  simp [Statement, encode, Instr.length, Instr.operands]
theorem call (a : Operand) : Statement (.call a) := by
  simp [Statement, encode, Instr.length, Instr.operands]
theorem ret : Statement .ret := by
  simp [Statement, encode, Instr.length, Instr.operands]
theorem out (a : Operand) : Statement (.out a) := by
  simp [Statement, encode, Instr.length, Instr.operands]
theorem inp (a : Operand) : Statement (.inp a) := by
  simp [Statement, encode, Instr.length, Instr.operands]
theorem noop : Statement .noop := by
  simp [Statement, encode, Instr.length, Instr.operands]

end Sys2Proof.Laws.EncodingLength
end

