-- ==== Sys2Proof/Machine/Assembler.lean ====
section
/-! DEFINITION. The assembler syntax (R99, R100) as a function from characters to Words. It is not part of
the core: no other file reads it. -/

namespace Sys2Proof.Machine

/-- A space, a tab or a carriage return. -/
def isBlank (c : Char) : Bool := c == ' ' || c == '\t' || c == '\r'

/-- Cut a text at every separator. -/
def cutAt (sep : Char → Bool) : List Char → List (List Char)
  | [] => [[]]
  | c :: cs =>
    match cutAt sep cs with
    | [] => [[c]]
    | p :: ps => if sep c then [] :: p :: ps else (c :: p) :: ps

/-- A text without the blanks at its ends. -/
def trimBlanks (cs : List Char) : List Char :=
  ((cs.dropWhile isBlank).reverse.dropWhile isBlank).reverse

/-- The value of a decimal digit. -/
def digitOf (c : Char) : Option Nat :=
  if 48 ≤ c.toNat ∧ c.toNat ≤ 57 then some (c.toNat - 48) else none

/-- The value of decimal digits read from the left, after the value `n`. -/
def decimalFrom (n : Nat) : List Char → Option Nat
  | [] => some n
  | c :: cs =>
    match digitOf c with
    | some d => decimalFrom (10 * n + d) cs
    | none => none

/-- A decimal number of at least one digit. -/
def decimal (cs : List Char) : Option Nat :=
  if cs = [] then none else decimalFrom 0 cs

/-- An operand (R99): `r0` to `r7`, or `$` and a decimal number `0..32767`. -/
def operandWord : List Char → Option Word
  | ['r', d] =>
    match digitOf d with
    | some i => if i < 8 then some (encodeOperand (.reg (Fin.ofNat 8 i))) else none
    | none => none
  | '$' :: ds =>
    match decimal ds with
    | some n => if n < Config.memWords then some (BitVec.ofNat 16 n) else none
    | none => none
  | _ => none

/-- The mnemonics in the order of their opcodes (R95). -/
def mnemonicTable : List (List Char) :=
  [ ['H', 'A', 'L', 'T'], ['S', 'E', 'T'], ['P', 'U', 'S', 'H'], ['P', 'O', 'P'], ['E', 'Q'],
    ['G', 'T'], ['J', 'M', 'P'], ['J', 'T'], ['J', 'F'], ['A', 'D', 'D'], ['M', 'U', 'L', 'T'],
    ['M', 'O', 'D'], ['A', 'N', 'D'], ['O', 'R'], ['N', 'O', 'T'], ['R', 'M', 'E', 'M'],
    ['W', 'M', 'E', 'M'], ['C', 'A', 'L', 'L'], ['R', 'E', 'T'], ['O', 'U', 'T'], ['I', 'N'],
    ['N', 'O', 'O', 'P'] ]

/-- The opcode of a mnemonic in capitals. -/
def opcodeOfName (cs : List Char) : Option Word :=
  match mnemonicTable.findIdx? (· = cs) with
  | some n => some (BitVec.ofNat 16 n)
  | none => none

/-- One statement: nothing, an instruction (mnemonic in any case, operands separated by commas), or the
directive `.word n` (R99, R100). -/
def assembleStatement (cs : List Char) : Option (List Word) :=
  let cs := trimBlanks cs
  let name := cs.takeWhile fun c => !isBlank c
  let rest := trimBlanks (cs.dropWhile fun c => !isBlank c)
  let args := if rest = [] then [] else (cutAt (· == ',') rest).map trimBlanks
  if cs = [] then some []
  else if name = ['.', 'w', 'o', 'r', 'd'] then
    match args with
    | [n] =>
      match decimal n with
      | some v => if v < 2 ^ 16 then some [BitVec.ofNat 16 v] else none
      | none => none
    | _ => none
  else
    match opcodeOfName (name.map Char.toUpper), args.mapM operandWord with
    | some op, some ws => if arityOf op = some ws.length then some (op :: ws) else none
    | _, _ => none

/-- The Words of a source text; statements end at a semicolon or a line's end (R99). -/
def assemble (src : List Char) : Option (List Word) :=
  ((cutAt (fun c => c == ';' || c == '\n') src).mapM assembleStatement).map List.flatten

end Sys2Proof.Machine
end

