-- ==== Sys2Proof/Tests/Slice0.lean ====
section
/-! SUPPORT. Tests. Expected results are those of spec/95_test_vectors.md (V.., S.., P..) or of the rule
named; each theorem is about one operation or one step. The witnesses at the end meet the hypotheses of
the statements. -/

namespace Sys2Proof.Tests

open Sys2Proof.Machine

/-! ### Helpers -/

/-- The reset state with Words stored from address 0. -/
def boot (ws : List Word) : State := { State.reset with mem := storeWords [] 0 ws }

/-- The reset state at address `p` with Words stored there. -/
def bootAt (p : Nat) (ws : List Word) : State :=
  { State.reset with mem := storeWords [] p ws, pc := BitVec.ofNat 16 p }

/-- What a step's next state shows. -/
def after {α : Type} (o : Host.Outcome State Fault Refusal) (f : State → α) : Option α :=
  match o with
  | .next t => some (f t)
  | .fault _ => none
  | .refused _ => none

/-- Register `i`. -/
abbrev reg (i : Fin 8) (t : State) : Word := t.reg i

/-- Where the run stands and the program counter. -/
def runPc (t : State) : RunState × Word := (t.run, t.pc)

/-! ### Well-formedness -/

theorem test_wellFormed_accepts_largest :
    (Instr.add (.reg 7) (.lit 32767) (.lit 0)).wellFormed = true := by decide
theorem test_wellFormed_refuses_literal_a :
    (Instr.set (.lit 32768) (.lit 0)).wellFormed = false := by decide
theorem test_wellFormed_refuses_literal_b :
    (Instr.jt (.reg 0) (.lit 65535)).wellFormed = false := by decide
theorem test_wellFormed_refuses_literal_c :
    (Instr.or (.reg 0) (.lit 1) (.lit 32776)).wellFormed = false := by decide

/-! ### Encoding: a word of every constructor, written out from R90, R93 and R95 -/

theorem test_decode_halt : decode ⟨0, 65535, 65535, 65535⟩ = .ok .halt := by decide
theorem test_decode_set : decode ⟨1, 32769, 7, 0⟩ = .ok (.set (.reg 1) (.lit 7)) := by decide
theorem test_decode_push : decode ⟨2, 32768, 0, 0⟩ = .ok (.push (.reg 0)) := by decide
theorem test_decode_pop : decode ⟨3, 32770, 0, 0⟩ = .ok (.pop (.reg 2)) := by decide
theorem test_decode_eq :
    decode ⟨4, 32769, 32768, 10⟩ = .ok (.eq (.reg 1) (.reg 0) (.lit 10)) := by decide
theorem test_decode_gt :
    decode ⟨5, 32773, 32768, 32771⟩ = .ok (.gt (.reg 5) (.reg 0) (.reg 3)) := by decide
theorem test_decode_jmp : decode ⟨6, 10, 0, 0⟩ = .ok (.jmp (.lit 10)) := by decide
theorem test_decode_jt : decode ⟨7, 32768, 3, 0⟩ = .ok (.jt (.reg 0) (.lit 3)) := by decide
theorem test_decode_jf : decode ⟨8, 32768, 20, 0⟩ = .ok (.jf (.reg 0) (.lit 20)) := by decide
theorem test_decode_add :
    decode ⟨9, 32768, 32769, 4⟩ = .ok (.add (.reg 0) (.reg 1) (.lit 4)) := by decide
theorem test_decode_mult :
    decode ⟨10, 32768, 300, 200⟩ = .ok (.mult (.reg 0) (.lit 300) (.lit 200)) := by decide
theorem test_decode_mod :
    decode ⟨11, 32768, 10, 3⟩ = .ok (.mod (.reg 0) (.lit 10) (.lit 3)) := by decide
theorem test_decode_and :
    decode ⟨12, 32774, 32768, 32769⟩ = .ok (.and (.reg 6) (.reg 0) (.reg 1)) := by decide
theorem test_decode_or :
    decode ⟨13, 32775, 32768, 32769⟩ = .ok (.or (.reg 7) (.reg 0) (.reg 1)) := by decide
theorem test_decode_not : decode ⟨14, 32769, 32768, 0⟩ = .ok (.not (.reg 1) (.reg 0)) := by decide
theorem test_decode_rmem : decode ⟨15, 32768, 20, 0⟩ = .ok (.rmem (.reg 0) (.lit 20)) := by decide
theorem test_decode_wmem : decode ⟨16, 100, 32768, 0⟩ = .ok (.wmem (.lit 100) (.reg 0)) := by decide
theorem test_decode_call : decode ⟨17, 10, 0, 0⟩ = .ok (.call (.lit 10)) := by decide
theorem test_decode_ret : decode ⟨18, 40000, 0, 0⟩ = .ok .ret := by decide
theorem test_decode_out : decode ⟨19, 32768, 0, 0⟩ = .ok (.out (.reg 0)) := by decide
theorem test_decode_in : decode ⟨20, 40, 0, 0⟩ = .ok (.inp (.lit 40)) := by decide
/-- V8: the unused slots are not checked. -/
theorem test_decode_noop : decode ⟨21, 40000, 40000, 40000⟩ = .ok .noop := by decide
/-- R92: 22 and a register's Word are no opcodes. -/
theorem test_decode_invalid_opcode :
    [22, 32768, 65535].map (fun op : Word => decode ⟨op, 0, 0, 0⟩) =
      [.error .invalidOpcode, .error .invalidOpcode, .error .invalidOpcode] := by decide
/-- R124: each used slot is checked, 32775 passes and 32776 does not. -/
theorem test_decode_invalid_operand :
    [decode ⟨9, 32776, 0, 0⟩, decode ⟨9, 0, 32776, 0⟩, decode ⟨9, 0, 0, 65535⟩,
      decode ⟨9, 32775, 32767, 0⟩] =
      [.error .invalidOperand, .error .invalidOperand, .error .invalidOperand,
        .ok (.add (.reg 7) (.lit 32767) (.lit 0))] := by decide
theorem test_encode_add :
    encode (.add (.reg 0) (.reg 1) (.lit 4)) = [9, 32768, 32769, 4] := by decide
/-- A table word's bit 16 is bit 0 of the second Word, and bits past `nbits` are 0. -/
theorem test_decodeTableWord :
    decodeTableWord 16 (1 + 2 ^ 16 * 5) = some (.set (.lit 0) (.lit 0)) ∧
      decodeTableWord 48 (1 + 2 ^ 16 * 32769 + 2 ^ 32 * 7) = some (.set (.reg 1) (.lit 7)) ∧
      decodeTableWord 16 22 = none := by decide
/-- S8, R99: the source's sample line. -/
theorem test_assemble_sample :
    assemble "ADD r0,r1,$4; OUT r0".toList = some [9, 32768, 32769, 4, 19, 32768] := by decide
/-- R99, R100: a mnemonic in small letters, a literal destination, and a data Word. -/
theorem test_assemble_word :
    assemble "set $100,$5\n.word 65535".toList = some [1, 100, 5, 65535] ∧
      assemble "SET $100".toList = none ∧ assemble "SET $32768,$5".toList = none := by decide

/-! ### Resolver, memory, loader -/

/-- S1. -/
theorem test_classify :
    [classify 32767, classify 32768, classify 32775, classify 32776] =
      [none, some 0, some 7, none] := by decide
/-- V1, V2. -/
theorem test_resolve :
    resolve (.reg 2) (State.reset.withReg 2 9) = 9 ∧ resolve (.lit 32767) State.reset = 32767 := by
  decide
/-- V3, V4. -/
theorem test_writeTo :
    ((writeTo (.lit 5) 77 State.reset).toOption.map fun t => (t.mem.readWord 5, t.x)) =
      some (77, State.reset.x) ∧
    ((writeTo (.reg 7) 77 State.reset).toOption.map fun t => (t.reg 7, t.mem)) =
      some (77, []) := by decide
/-- R65: the low byte lies at the even address; equal contents are equal data. -/
theorem test_memory_is_canonical :
    storeWords [] 0 [0x0102, 0, 0x0300] = [(0, 0x02), (1, 0x01), (5, 0x03)] ∧
      (storeWords [] 0 [7, 9]).writeWord 1 0 = storeWords [] 0 [7] := by decide
theorem test_reset_memory_wf : State.reset.mem.wf := by decide
/-- S7. -/
theorem test_load_example :
    ((load .default false .idle (.bytes [1, 0, 2, 0, 3, 0])).toOption.map fun s =>
      [s.mem.readWord 0, s.mem.readWord 1, s.mem.readWord 2, s.mem.readWord 3]) =
      some [1, 2, 3, 0] := by decide
/-- R292: an odd byte. -/
theorem test_load_odd :
    load .default false .idle (.bytes [1, 0, 2]) = .error .oddLength := by decide

/-! ### One step of every instruction -/

/-- V49. -/
theorem test_halt : after (step (boot [0])) runPc = some (.halted .haltInstruction, 0) := by decide
/-- R153's example. -/
theorem test_set_register :
    after (step (boot [1, 32769, 7])) (fun t => (reg 1 t, t.pc)) = some (7, 3) := by decide
/-- V12. -/
theorem test_set_memory :
    after (step (boot [1, 50, 7])) (fun t => (t.mem.readWord 50, t.x)) =
      some (7, State.reset.x) := by decide
/-- R154's example. -/
theorem test_push :
    after (step ((boot [2, 32768]).withReg 0 5)) (fun t => (t.stack, t.pc)) = some ([5], 2) := by
  decide
/-- V19. -/
theorem test_push_overflow :
    after (step { boot [2, 32768] with params := { Params.default with stackLimit := some 0 } })
      runPc = some (.faulted .stackOverflow, 0) := by decide
/-- R155's example. -/
theorem test_pop :
    after (step { boot [3, 32770] with stack := [4, 9] }) (fun t => (reg 2 t, t.stack, t.pc)) =
      some (9, [4], 2) := by decide
/-- V11. -/
theorem test_pop_underflow :
    after (step ((boot [3, 32768]).withReg 0 6)) (fun t => (runPc t, reg 0 t)) =
      some ((.faulted .underflow, 0), 6) := by decide
/-- V29e. -/
theorem test_eq :
    after (step ((boot [4, 32768, 32769, 5]).withReg 1 5)) (fun t => (reg 0 t, t.pc)) =
      some (1, 4) := by decide
/-- S5. -/
theorem test_eq_different : after (step (boot [4, 32768, 5, 6])) (reg 0) = some 0 := by decide
/-- V29f. -/
theorem test_gt_unsigned :
    after (step ((boot [5, 32768, 32769, 32767]).withReg 1 40000)) (reg 0) = some 1 := by decide
/-- S5: GT(5, 6) = 0, against swapped operands. -/
theorem test_gt_smaller : after (step (boot [5, 32768, 5, 6])) (reg 0) = some 0 := by decide
/-- V40. -/
theorem test_jmp : after (step (boot [6, 10])) (fun t => t.pc) = some 10 := by decide
/-- V48. -/
theorem test_jmp_unchecked :
    after (step (boot [6, 32765])) runPc = some (.running, 32765) := by decide
/-- V41. -/
theorem test_jt_not_taken :
    after (step (bootAt 20 [7, 32768, 3])) (fun t => t.pc) = some 23 := by decide
/-- V42. -/
theorem test_jt_taken :
    after (step ((bootAt 20 [7, 32768, 3]).withReg 0 40000)) (fun t => t.pc) = some 3 := by decide
/-- V43. -/
theorem test_jf_taken :
    after (step (bootAt 20 [8, 32768, 9])) (fun t => t.pc) = some 9 := by decide
/-- V44. -/
theorem test_jf_not_taken :
    after (step ((bootAt 20 [8, 32768, 9]).withReg 0 1)) (fun t => t.pc) = some 23 := by decide
/-- V20. -/
theorem test_add_wraps :
    after (step ((boot [9, 32768, 32767, 1]).withReg 0 8)) (reg 0) = some 0 := by decide
/-- V29h: the destination is also a source. -/
theorem test_add_in_place :
    after (step ((boot [9, 32769, 32769, 32769]).withReg 1 20000)) (reg 1) = some 7232 := by decide
/-- V22. -/
theorem test_mult_exact :
    after (step (boot [10, 32768, 32767, 32767])) (reg 0) = some 1 := by decide
/-- V24. -/
theorem test_mult : after (step (boot [10, 32768, 300, 200])) (reg 0) = some 27232 := by decide
/-- V28: not reduced. -/
theorem test_mod_not_reduced :
    after (step (((boot [11, 32768, 32769, 32770]).withReg 1 40000).withReg 2 50000)) (reg 0) =
      some 40000 := by decide
/-- V27. -/
theorem test_mod_zero :
    after (step ((boot [11, 32768, 5, 0]).withReg 0 6)) (fun t => (runPc t, reg 0 t)) =
      some ((.faulted .divideByZero, 0), 6) := by decide
/-- V29. -/
theorem test_and : after (step (boot [12, 32768, 32767, 240])) (reg 0) = some 240 := by decide
/-- V29a: no mask. -/
theorem test_and_high :
    after (step ((boot [12, 32768, 32769, 32769]).withReg 1 40000)) (reg 0) = some 40000 := by
  decide
/-- V29b. -/
theorem test_or : after (step (boot [13, 32768, 21845, 10922])) (reg 0) = some 32767 := by decide
/-- V29c. -/
theorem test_not : after (step (boot [14, 32768, 21845])) (reg 0) = some 10922 := by decide
/-- V29d. -/
theorem test_not_high :
    after (step ((boot [14, 32768, 32769]).withReg 1 32768)) (reg 0) = some 32767 := by decide
/-- V15. -/
theorem test_rmem_in_place :
    after (step { (boot [15, 32769, 32769]).withReg 1 20 with
      mem := storeWords (boot [15, 32769, 32769]).mem 20 [40000] }) (reg 1) = some 40000 := by
  decide
/-- V16. -/
theorem test_rmem_out_of_range :
    after (step ((boot [15, 32768, 32769]).withReg 1 40000)) runPc =
      some (.faulted .memoryOutOfRange, 0) := by decide
/-- V17. -/
theorem test_wmem :
    after (step ((boot [16, 32768, 9]).withReg 0 100)) (fun t => (t.mem.readWord 100, reg 0 t)) =
      some (9, 100) := by decide
/-- V18: it overwrites its own operand and still acts on the operand it read. -/
theorem test_wmem_own_operand :
    after (step (boot [16, 1, 5])) (fun t => (t.mem.readWord 1, t.pc)) = some (5, 3) := by decide
/-- V45. -/
theorem test_call :
    after (step ((bootAt 6 [17, 32768]).withReg 0 100)) (fun t => (t.stack, t.pc)) =
      some ([8], 100) := by decide
/-- V46. -/
theorem test_ret :
    after (step { boot [18] with stack := [8] }) (fun t => (t.pc, t.stack)) = some (8, []) := by
  decide
/-- V47. -/
theorem test_ret_empty :
    after (step (boot [18])) (fun t => (t.run, t.outClosed)) = some (.halted .emptyReturn, true) := by
  decide
/-- V34: not truncated. -/
theorem test_out_taken :
    after (step { (boot [19, 32768]).withReg 0 300 with envMove := .take })
      (fun t => (t.output, t.pc, t.ioWait)) = some ([300], 2, .none) := by decide
/-- V30: cancelled during the wait, with nothing sent. -/
theorem test_out_cancelled :
    after (step { boot [19, 65] with ioWait := .waitSend 65, cancel := true })
      (fun t => (runPc t, t.output, t.ioWait)) = some ((.halted .cancelled, 0), [], .none) := by
  decide
/-- V33. -/
theorem test_in_to_memory :
    after (step { boot [20, 40] with envMove := .give 10 }) (fun t => (t.mem.readWord 40, t.pc)) =
      some (10, 2) := by decide
/-- V31. -/
theorem test_in_timeout :
    after (step { (boot [20, 32768]).withReg 0 6 with
      ioWait := .waitReceive (.reg 0), envMove := .expire }) (fun t => (runPc t, reg 0 t)) =
      some ((.faulted .ioWatchdogTimeout, 0), 6) := by decide
/-- V50. -/
theorem test_noop : after (step (boot [21])) (fun t => t.pc) = some 1 := by decide

/-! ### The cycle -/

/-- V5, V6, V7. -/
theorem test_decode_faults :
    [after (step (boot [22])) runPc, after (step (boot [32768])) runPc,
      after (step (boot [1, 32776, 0])) runPc] =
      [some (.faulted .invalidOpcode, 0), some (.faulted .invalidOpcode, 0),
        some (.faulted .invalidOperand, 0)] := by decide
/-- V9, and R122's last fetchable address. -/
theorem test_fetch_bound :
    after (step (bootAt 32765 [21])) runPc = some (.faulted .fetchOutOfRange, 32765) ∧
      after (step (bootAt 32764 [21])) runPc = some (.running, 32765) := by decide
/-- R121: at a boundary with `cancel = 1` both choices are admitted. -/
theorem test_boundary_cancel :
    after (step { boot [21] with cancel := true, envMove := .stop }) runPc =
      some (.halted .cancelled, 0) ∧
    after (step { boot [21] with cancel := true, envMove := .idle }) runPc =
      some (.running, 1) := by decide
/-- R271: FetchOutOfRange comes before the opcode check, the opcode check before the operand check. -/
theorem test_priority :
    after (step (bootAt 32766 [22])) (fun t => t.run) = some (.faulted .fetchOutOfRange) ∧
      after (step (boot [22, 65535])) (fun t => t.run) = some (.faulted .invalidOpcode) := by decide
/-- R35: no step from a terminal state. -/
theorem test_terminal_has_no_step :
    step { boot [21] with run := .halted .emptyReturn } = .fault (.halted .emptyReturn) := by rfl
/-- Every opcode, placed with operand Words of zeros, is the next step's instruction: the step has a next
state for each, and MOD by the zero operand is the one that faults beside POP of the empty stack. -/
theorem test_withFetchWord :
    (List.range 22).map (fun op => after (step (State.reset.withFetchWord 16 op)) (fun t => t.run)) =
      [some (.halted .haltInstruction), some .running, some .running, some (.faulted .underflow),
        some .running, some .running, some .running, some .running, some .running, some .running,
        some .running, some (.faulted .divideByZero), some .running, some .running, some .running,
        some .running, some .running, some .running, some (.halted .emptyReturn), some .running,
        some .running, some .running] := by decide

/-! ### Witnesses: states and operands that meet the hypotheses of each statement -/

/-- A state whose stack holds `st` under STACK_LIMIT `l`. -/
def limited (l : Option Nat) (st : List Word) (ws : List Word) : State :=
  { boot ws with params := { Params.default with stackLimit := l }, stack := st }

/-- A suspended OUT or IN. -/
def waiting (w : IoWait) (c : Bool) (m : EnvMove) (ws : List Word) : State :=
  { boot ws with ioWait := w, cancel := c, envMove := m }

/-- What the next state of a step shows. -/
def Steps {α : Type} (s : State) (f : State → α) (v : α) : Prop :=
  ∃ t, step s = .next t ∧ f t = v

theorem Steps.of_after {α : Type} {s : State} {f : State → α} {v : α}
    (h : after (step s) f = some v) : Steps s f v := by
  unfold after at h
  split at h
  · next t e => exact ⟨t, e, Option.some.inj h⟩
  · cases h
  · cases h

/-- DecodeOfEncodeIsIdentity, and every statement with a well-formed instruction: the largest literal and
register in each slot. -/
theorem witness_wellFormed :
    [Instr.set (.lit 32767) (.reg 7), .pop (.lit 32767), .pop (.reg 0), .rmem (.lit 0) (.lit 32767),
      .eq (.reg 7) (.lit 32767) (.reg 0), .gt (.lit 32767) (.reg 7) (.lit 0),
      .add (.lit 0) (.lit 32767) (.reg 7), .mult (.reg 0) (.lit 32767) (.lit 32767),
      .mod (.reg 0) (.reg 7) (.lit 0), .and (.reg 0) (.reg 7) (.lit 1), .or (.lit 7) (.reg 7) (.lit 1),
      .not (.reg 0) (.lit 32767), .inp (.lit 32767), .inp (.reg 7)].all Instr.wellFormed = true := by
  decide
/-- EncodeOfDecodeIsPrefix. -/
theorem witness_EncodeOfDecodeIsPrefix :
    decode ⟨1, 32775, 32767, 65535⟩ = .ok (.set (.reg 7) (.lit 32767)) := by decide
/-- DecodeIsTotal: each side of each clause. -/
theorem witness_DecodeIsTotal :
    arityOf 21 = some 0 ∧ arityOf 22 = none ∧ decode ⟨21, 65535, 0, 0⟩ = .ok .noop ∧
      arityOf 6 = some 1 ∧ decode ⟨6, 32775, 65535, 0⟩ = .ok (.jmp (.reg 7)) ∧
      decode ⟨6, 32776, 0, 0⟩ = .error .invalidOperand := by decide
/-- ClassifyNamesRegisters, ResolveReadsRegisterOrLiteral and WriteToStoresInRegisterOrCell: the ends of
the register and of the literal range. -/
theorem witness_operand_words :
    (32775 : Word).toNat ≤ 32775 ∧ (32775 : Word).toNat = 32768 + (7 : Fin 8).val ∧
      (32768 : Word).toNat = 32768 + (0 : Fin 8).val ∧ (32767 : Word).toNat ≤ 32767 ∧
      ¬ (32776 : Word).toNat ≤ 32775 ∧ SameRegs State.reset { State.reset with pc := 9 } :=
  ⟨by decide, by decide, by decide, by decide, by decide, fun _ => rfl⟩
/-- EncodedF1 to EncodedF3: a boundary that fetches a window with one operand Word past 32775. -/
theorem witness_RaisesInvalidOperand :
    Boundary (boot [2, 32776]) ∧ (boot [2, 32776]).cancel = false ∧
      fetch (boot [2, 32776]) = .ok ⟨2, 32776, 0, 0⟩ ∧
      fetch (boot [1, 32775, 32776]) = .ok ⟨1, 32775, 32776, 0⟩ ∧
      fetch (boot [4, 32775, 32767, 65535]) = .ok ⟨4, 32775, 32767, 65535⟩ :=
  ⟨⟨rfl, rfl⟩, rfl, by decide, by decide, by decide⟩
/-- PushAppendsToTheStack, CallPushesReturnAddress, PushThenPopReturnsValue and
CallThenRetReturnsAfterCall: no limit, a limit not reached, a limit reached; the last `pc`. -/
theorem witness_stack_limit :
    (limited none [5] []).params.stackLimit ≠ some (limited none [5] []).stack.length ∧
      (limited (some 2) [5] []).params.stackLimit ≠ some (limited (some 2) [5] []).stack.length ∧
      (limited (some 1) [5] []).params.stackLimit = some (limited (some 1) [5] []).stack.length ∧
      (limited (some 0) [] []).params.stackLimit = some (limited (some 0) [] []).stack.length ∧
      (Operand.lit 32767).WellFormed ∧ (bootAt 32764 [17, 0]).pc.toNat ≤ 32764 := by decide
/-- PopStoresTheTopWord and RetPopsPcOrHalts: two Words, one Word, none. -/
theorem witness_stack_shapes :
    (limited none [5, 6] []).stack = [5] ++ [6] ∧ (limited none [6] []).stack = [] ++ [6] ∧
      (limited none [] []).stack = [] := by decide
/-- RmemStoresTheAddressedWord and WmemWritesTheAddressedWord: the last address, and the first past it. -/
theorem witness_addresses :
    (resolve (.lit 32767) State.reset).toNat ≤ 32767 ∧
      (resolve (.reg 3) (State.reset.withReg 3 32767)).toNat ≤ 32767 ∧
      32768 ≤ (resolve (.reg 3) (State.reset.withReg 3 32768)).toNat := by decide
/-- ModStoresRemainder and AluResultsStayIn15Bits: divisors 1 and 0, the largest 15-bit inputs. -/
theorem witness_divisors :
    (resolve (.lit 1) State.reset).toNat ≠ 0 ∧ (resolve (.reg 0) State.reset).toNat = 0 ∧
      (resolve (.lit 32767) State.reset).toNat ≤ 32767 := by decide
/-- JmpSetsPc: the first target that cannot be fetched from, at a boundary with no stop. -/
theorem witness_FaultsAtNextFetch :
    Boundary { boot [6, 32765] with pc := resolve (.lit 32765) (boot []) } ∧
      (boot [6, 32765]).cancel = false ∧ 32764 < (resolve (.lit 32765) (boot [])).toNat :=
  ⟨⟨rfl, rfl⟩, rfl, by decide⟩
/-- JfJumpsOnZero: a target other than the next instruction. -/
theorem witness_JfJumpsOnZero :
    resolve (.lit 9) (boot [8, 0, 9]) ≠ BitVec.ofNat 16 ((boot [8, 0, 9]).pc.toNat + 3) := by decide
/-- JtJumpsOnNonZero and JfJumpsOnZero: both branches. -/
theorem witness_conditions :
    resolve (.lit 1) State.reset ≠ 0 ∧ resolve (.reg 7) (State.reset.withReg 7 32768) ≠ 0 ∧
      resolve (.lit 0) State.reset = 0 := by decide
/-- OutSendsOrWaits and InReceivesOrWaits: every move, at the ends of the default INPUT_ALPHABET. -/
theorem witness_moves :
    admits Params.default 0 = true ∧ admits Params.default 255 = true ∧
      admits Params.default 256 = false ∧
      (boot []).envMove ≠ .take ∧ (boot []).envMove ≠ .expire ∧ (boot []).cancel = false ∧
      (∀ ch, (boot []).envMove = .give ch → admits (boot []).params ch = false) ∧
      (∀ ch, (waiting .none true (.give 256) []).envMove = .give ch →
        admits (waiting .none true (.give 256) []).params ch = false) ∧
      (waiting .none true (.give 256) []).cancel = true :=
  ⟨by decide, by decide, by decide, by decide, by decide, by decide, fun _ h => (by cases h),
    fun ch h => (by cases h; decide), by decide⟩
/-- SuspendedSendTakesOneOutcome: its four cases. -/
theorem witness_SuspendedSend :
    Steps (waiting (.waitSend 65) true .take [19, 65]) (fun t => (t.output, t.pc)) ([65], 2) ∧
      Steps (waiting (.waitSend 65) true .expire [19, 65]) runPc (.faulted .ioWatchdogTimeout, 0) ∧
      Steps (waiting (.waitSend 65) true .idle [19, 65]) runPc (.halted .cancelled, 0) ∧
      Steps (waiting (.waitSend 65) false (.give 7) [19, 65]) (fun t => t.ioWait) (.waitSend 65) :=
  ⟨.of_after (by decide), .of_after (by decide), .of_after (by decide), .of_after (by decide)⟩
/-- SuspendedReceiveTakesOneOutcome: its four cases, the character at an end of the alphabet. -/
theorem witness_SuspendedReceive :
    Steps (waiting (.waitReceive (.reg 7)) true (.give 255) [20, 32775]) (fun t => (reg 7 t, t.pc))
        (255, 2) ∧
      Steps (waiting (.waitReceive (.reg 7)) false .expire [20, 32775]) runPc
        (.faulted .ioWatchdogTimeout, 0) ∧
      Steps (waiting (.waitReceive (.reg 7)) true (.give 256) [20, 32775]) runPc
        (.halted .cancelled, 0) ∧
      Steps (waiting (.waitReceive (.reg 7)) false .take [20, 32775]) (fun t => t.ioWait)
        (.waitReceive (.reg 7)) :=
  ⟨.of_after (by decide), .of_after (by decide), .of_after (by decide), .of_after (by decide)⟩
/-- TimeoutNeedsWatchdogExpiry: at a suspension, and at an OUT and an IN that begin. -/
theorem witness_TimeoutNeedsWatchdogExpiry :
    Steps (waiting (.waitSend 65) false .expire [19, 65]) (fun t => t.run)
        (.faulted .ioWatchdogTimeout) ∧
      Steps (waiting .none false .expire [19, 65]) (fun t => t.run) (.faulted .ioWatchdogTimeout) ∧
      Steps (waiting .none false .expire [20, 65]) (fun t => t.run) (.faulted .ioWatchdogTimeout) :=
  ⟨.of_after (by decide), .of_after (by decide), .of_after (by decide)⟩
/-- OutputGrowsOnlyByCompletedOut: a step that sends from a suspension, and one from a boundary. -/
theorem witness_OutputGrows :
    Steps (waiting (.waitSend 65) false .take [19, 65]) (fun t => t.output) [65] ∧
      Steps (waiting .none false .take [19, 65]) (fun t => t.output) [65] :=
  ⟨.of_after (by decide), .of_after (by decide)⟩
/-- StepRunsTheDecodedInstruction, BoundaryCancelMayStop and TraceRecordHoldsTheFields: the last address
from which an instruction is fetched, with `cancel = 1` and another move than the stop. -/
theorem witness_StepRuns :
    Boundary { bootAt 32764 [9, 32768, 32769, 4] with cancel := true } ∧
      ({ bootAt 32764 [9, 32768, 32769, 4] with cancel := true } : State).envMove ≠ .stop ∧
      (bootAt 32764 [9, 32768, 32769, 4]).pc.toNat ≤ 32764 ∧
      fetchInstr { bootAt 32764 [9, 32768, 32769, 4] with cancel := true } =
        .ok (.add (.reg 0) (.reg 1) (.lit 4)) :=
  ⟨⟨rfl, rfl⟩, by decide, by decide, by decide⟩
/-- BoundaryCancelMayStop and FaultPriority: the stop. -/
theorem witness_boundary_stop :
    Boundary (waiting .none true .stop [21]) ∧ (waiting .none true .stop [21]).cancel = true ∧
      (waiting .none true .stop [21]).envMove = .stop := ⟨⟨rfl, rfl⟩, rfl, rfl⟩
/-- FaultPriority: a boundary of each of its later cases. -/
theorem witness_FaultPriority :
    Boundary (bootAt 32765 [21]) ∧ 32764 < (bootAt 32765 [21]).pc.toNat ∧
      Boundary (boot [22]) ∧ 21 < ((boot [22]).mem.readWord 0).toNat ∧
      Boundary (boot [2, 32776]) ∧ arityOf ((boot [2, 32776]).mem.readWord 0) = some 1 ∧
      32776 ≤ ((boot [2, 32776]).mem.readWord 1).toNat :=
  ⟨⟨rfl, rfl⟩, by decide, ⟨rfl, rfl⟩, by decide, ⟨rfl, rfl⟩, by decide, by decide⟩
/-- FaultsArePrecise, and FaultPriority's second clause: a step into every kind of fault. -/
theorem witness_FaultsArePrecise :
    Steps (boot [3, 32768]) (fun t => t.run) (.faulted .underflow) ∧
      Steps (boot [22]) (fun t => t.run) (.faulted .invalidOpcode) ∧
      Steps (waiting .none true .expire [20, 32768]) (fun t => t.run)
        (.faulted .ioWatchdogTimeout) ∧
      Steps (boot [1, 0, 32776]) (fun t => t.run) (.faulted .invalidOperand) ∧
      Steps ((boot [16, 32768, 9]).withReg 0 32768) (fun t => t.run) (.faulted .memoryOutOfRange) ∧
      Steps (bootAt 32765 []) (fun t => t.run) (.faulted .fetchOutOfRange) ∧
      Steps (boot [11, 32768, 5, 0]) (fun t => t.run) (.faulted .divideByZero) ∧
      Steps (limited (some 0) [] [17, 9]) (fun t => t.run) (.faulted .stackOverflow) :=
  ⟨.of_after (by decide), .of_after (by decide), .of_after (by decide), .of_after (by decide),
    .of_after (by decide), .of_after (by decide), .of_after (by decide), .of_after (by decide)⟩
/-- HaltsKeepTheState and HaltReasonsHaveTheirCauses: a step into every halt. -/
theorem witness_HaltReasons :
    Steps (boot [0]) (fun t => t.run) (.halted .haltInstruction) ∧
      Steps (boot [18]) (fun t => t.run) (.halted .emptyReturn) ∧
      Steps (waiting .none true .stop [21]) (fun t => t.run) (.halted .cancelled) ∧
      Steps (waiting (.waitSend 1) true .idle [19, 1]) (fun t => t.run) (.halted .cancelled) :=
  ⟨.of_after (by decide), .of_after (by decide), .of_after (by decide), .of_after (by decide)⟩
/-- TerminalStatesHaveNoStep and RunningMachineAlwaysSteps. -/
theorem witness_run_states :
    ({ State.reset with run := .halted .cancelled } : State).run = .halted .cancelled ∧
      ({ State.reset with run := .faulted .underflow } : State).run = .faulted .underflow ∧
      State.reset.run = .running := ⟨rfl, rfl, rfl⟩
/-- StepKeepsInvariant: a suspended OUT of a program with a bounded stack that is full. -/
theorem witness_StepKeepsInvariant :
    State.Inv { waiting (.waitSend 65) false .take [19, 65] with
      params := { Params.default with stackLimit := some 1 }, stack := [3] } where
  memory := by decide
  closed := by decide
  waiting := fun _ => rfl
  atOut := fun v h => ⟨.lit 65, by decide, by cases h; rfl⟩
  atIn := fun d h => by cases h
  depth := fun n h => by cases h; decide
/-- StepKeepsInvariant: a suspended IN. -/
theorem witness_StepKeepsInvariant_in :
    State.Inv (waiting (.waitReceive (.lit 40)) true (.give 10) [20, 40]) where
  memory := by decide
  closed := by decide
  waiting := fun _ => rfl
  atOut := fun v h => by cases h
  atIn := fun d h => by cases h; decide
  depth := fun n h => by cases h
/-- TerminalPortsAreQuiet: a terminal state that meets the invariant. -/
theorem witness_TerminalPortsAreQuiet :
    State.Inv { boot [0] with run := .halted .haltInstruction, outClosed := true } ∧
      ({ boot [0] with run := .halted .haltInstruction } : State).run ≠ .running :=
  ⟨⟨by decide, by decide, fun h => absurd rfl h, fun v h => (by cases h), fun d h => (by cases h),
    fun n h => (by cases h)⟩, by decide⟩
/-- LoadedStateSatisfiesInvariant: an image that loads. -/
theorem witness_LoadedState :
    ∃ s, load ⟨some 0, [], .reject⟩ true .stop (.bytes [21, 0, 0xFF, 0xFF]) = .ok s := ⟨_, rfl⟩
/-- RegistersChangeOnlyThroughDestination: by SET, and by an IN that completes. -/
theorem witness_RegistersChange :
    Steps (boot [1, 32775, 9]) (reg 7) 9 ∧
      Steps (waiting (.waitReceive (.reg 7)) false (.give 9) [20, 32775]) (reg 7) 9 ∧
      (9 : Word) ≠ (boot [1, 32775, 9]).reg 7 :=
  ⟨.of_after (by decide), .of_after (by decide), by decide⟩
/-- MemoryChangesOnlyByDestinationOrWmem: by SET, by IN, by WMEM; both bytes of a Word. -/
theorem witness_MemoryChanges :
    Steps (boot [1, 32767, 1]) (fun t => t.mem.readByte 65534) 1 ∧
      Steps (waiting (.waitReceive (.lit 40)) false (.give 9) [20, 40])
        (fun t => t.mem.readByte 80) 9 ∧
      Steps ((boot [16, 40, 32768]).withReg 0 0x0900) (fun t => t.mem.readByte 81) 9 ∧
      (boot [1, 32767, 1]).mem.readByte 65534 = 0 ∧ (boot [20, 40]).mem.readByte 80 = 0 ∧
      (boot [16, 40, 32768]).mem.readByte 81 = 0 :=
  ⟨.of_after (by decide), .of_after (by decide), .of_after (by decide), by decide, by decide,
    by decide⟩
/-- StackChangesOnlyByStackInstructions: by each of the four. -/
theorem witness_StackChanges :
    Steps (boot [2, 7]) (fun t => t.stack) [7] ∧
      Steps (limited none [7] [3, 32768]) (fun t => t.stack) [] ∧
      Steps (boot [17, 9]) (fun t => t.stack) [2] ∧
      Steps (limited none [7] [18]) (fun t => t.stack) [] :=
  ⟨.of_after (by decide), .of_after (by decide), .of_after (by decide), .of_after (by decide)⟩
/-- CompletedInstructionsAdvanceByLength: a completed instruction of every arm of the statement, the
longest at the last address. -/
theorem witness_CompletedInstructions :
    fetchInstr (bootAt 32764 [9, 32768, 32769, 4]) = .ok (.add (.reg 0) (.reg 1) (.lit 4)) ∧
      Steps (bootAt 32764 [9, 32768, 32769, 4]) (fun t => (runPc t, t.ioWait))
        ((.running, 32768), .none) ∧
      Steps (boot [6, 10]) (fun t => (runPc t, t.ioWait)) ((.running, 10), .none) ∧
      Steps (boot [17, 10]) (fun t => (runPc t, t.ioWait)) ((.running, 10), .none) ∧
      Steps (limited none [8] [18]) (fun t => (runPc t, t.ioWait)) ((.running, 8), .none) ∧
      Steps (boot [7, 1, 10]) (fun t => (runPc t, t.ioWait)) ((.running, 10), .none) ∧
      Steps (boot [8, 1, 10]) (fun t => (runPc t, t.ioWait)) ((.running, 3), .none) :=
  ⟨by decide, .of_after (by decide), .of_after (by decide), .of_after (by decide),
    .of_after (by decide), .of_after (by decide), .of_after (by decide)⟩
/-- LatchesAndParametersPersist: a step with both latches set. -/
theorem witness_Latches :
    Steps { boot [21] with outClosed := true, cancel := true } (fun t => (t.outClosed, t.cancel))
      (true, true) := .of_after (by decide)
/-- OnlyIoReadsTheEnvironment. -/
theorem witness_OnlyIo : ∀ a, Instr.halt ≠ .out a ∧ Instr.halt ≠ .inp a := by
  intro a; constructor <;> simp
/-- FetchSeesWrittenWord: the last address written, the last address fetched from. -/
theorem witness_FetchSees :
    (resolve (.lit 32767) State.reset).toNat ≤ 32767 ∧ (32764 : Word).toNat ≤ 32764 ∧
      (32764 : Word).toNat + 3 = (resolve (.lit 32767) State.reset).toNat := by decide
/-- FetchSeesWrittenWord: an instruction and a suspended IN that complete with a literal destination. -/
theorem witness_FetchSees_completed :
    Boundary (boot [1, 32767, 7]) ∧
      fetchInstr (boot [1, 32767, 7]) = .ok (.set (.lit 32767) (.lit 7)) ∧
      destOf (.set (.lit 32767) (.lit 7)) = some (.lit 32767) ∧
      Steps (boot [1, 32767, 7]) (fun t => (t.run, t.ioWait)) (.running, .none) ∧
      Steps (waiting (.waitReceive (.lit 40)) false (.give 10) [20, 40])
        (fun t => (t.run, t.ioWait)) (.running, .none) :=
  ⟨⟨rfl, rfl⟩, by decide, by decide, .of_after (by decide), .of_after (by decide)⟩
/-- SeenByLaterFetches: a NOOP at 32763 does not write the last Word, and the fetch after it reads it. -/
theorem witness_ReachesUnwritten :
    ∃ u, ReachesUnwritten 32767 (bootAt 32763 [21, 21, 0, 0, 9]) u ∧
      fetch u = .ok ⟨21, 0, 0, 9⟩ ∧ u.pc.toNat + 3 = 32767 := by
  have hf : fetchInstr (bootAt 32763 [21, 21, 0, 0, 9]) = .ok .noop := by decide
  obtain ⟨u, hs, hu⟩ := Steps.of_after (s := bootAt 32763 [21, 21, 0, 0, 9])
    (f := fun t => (fetch t, t.pc.toNat)) (v := (.ok ⟨21, 0, 0, 9⟩, 32764)) (by decide)
  refine ⟨u, .tail .refl ?_ hs, (Prod.mk.inj hu).1, by rw [(Prod.mk.inj hu).2]⟩
  rintro (⟨w, h, _⟩ | ⟨_, i, hi, h⟩)
  · cases h
  · cases hf.symm.trans hi
    rcases h with ⟨w, h, _⟩ | ⟨a, b, h, _⟩ <;> cases h
/-- LoadPlacesImageLittleEndian and LoadFailuresAndTruncation: the lengths at which the cases meet. -/
theorem witness_images :
    (List.replicate 65536 (1 : Byte)).length % 2 = 0 ∧
      (List.replicate 65536 (1 : Byte)).length ≤ 65536 ∧
      (List.replicate 65535 (1 : Byte)).length % 2 = 1 ∧
      (List.replicate 65535 (1 : Byte)).length ≤ 65536 ∧
      65536 < (List.replicate 65538 (1 : Byte)).length ∧
      (List.replicate 65538 (1 : Byte)).length % 2 = 0 ∧
      Params.default.oversizeImage = .truncate := by
  refine ⟨?_, ?_, ?_, ?_, ?_, ?_, rfl⟩ <;> rw [List.length_replicate] <;> norm_num

end Sys2Proof.Tests
end

/-! What one step does to the state, in eight kinds of effect, and what follows from it: the machine's
invariant (R33, R38, R39, R150), the frames of registers, memory and stack, and how a run ends. -/

namespace Sys2Proof.Machine

/-! ### The effect of a step -/

/-- The coming step of `s` serves the rendezvous `w` (R231, R232, R236): `w` is suspended already, or the
OUT or IN at `pc` begins it. -/
inductive Serves (s : State) : IoWait → Prop
  /-- The suspension goes on. -/
  | resumed (h : s.ioWait ≠ .none) : Serves s s.ioWait
  /-- OUT begins. -/
  | out (a : Operand) (hw : s.ioWait = .none) (hf : fetchInstr s = .ok (.out a)) :
      Serves s (.waitSend (resolve a s))
  /-- IN begins. -/
  | inp (a : Operand) (hw : s.ioWait = .none) (hf : fetchInstr s = .ok (.inp a)) :
      Serves s (.waitReceive a)

/-- The coming step of `s` has the destination `d` (R94): that of a suspended IN, or that of the
instruction at `pc`. -/
def Targets (s : State) (d : Operand) : Prop :=
  s.ioWait = .waitReceive d ∨ s.ioWait = .none ∧ ∃ i, fetchInstr s = .ok i ∧ destOf i = some d

/-- A boundary at which a stack instruction (R154, R155, R204, R205) is fetched. -/
def FetchesStackInstr (s : State) : Prop :=
  s.ioWait = .none ∧
    ∃ i, fetchInstr s = .ok i ∧ (i = .ret ∨ ∃ a, i = .push a ∨ i = .pop a ∨ i = .call a)

/-- The stack a step may leave: the same, or one Word pushed or popped by a stack instruction. -/
def StackAfter (s : State) (st : List Word) : Prop :=
  st = s.stack ∨ FetchesStackInstr s ∧ (Pushed s st ∨ Popped s st)

/-- What makes a step halt for each reason (R36). -/
def HaltCause (s : State) : HaltReason → Prop
  | .haltInstruction => s.ioWait = .none ∧ fetchInstr s = .ok .halt
  | .emptyReturn => s.ioWait = .none ∧ fetchInstr s = .ok .ret ∧ s.stack = []
  | .cancelled => s.cancel = true

/-- Everything a step can do before the environment's draw, whether it serves a suspension or begins an
instruction. -/
inductive StepEffect (s : State) : State → Prop
  /-- A fault (R260). -/
  | raise (k : FaultKind) : StepEffect s (s.raise k)
  /-- A clean end of the run (R37, R237). -/
  | halt (r : HaltReason) (h : HaltCause s r) : StepEffect s ((s.withWait .none).halt r)
  /-- The rendezvous stays suspended (R236). -/
  | wait (w : IoWait) (h : Serves s w) : StepEffect s (s.withWait w)
  /-- The host takes the Word of an OUT (R233). -/
  | sent (v : Word) (h : Serves s (.waitSend v)) :
      StepEffect s (((s.emit v).withWait .none).advance 2)
  /-- An instruction without a destination sets `pc` and perhaps the stack. -/
  | move (p : Word) (st : List Word) (hw : s.ioWait = .none) (h : StackAfter s st) :
      StepEffect s ((s.withStack st).withPc p)
  /-- A destination register is written (R127). -/
  | reg (j : Fin 8) (v : Word) (n : Nat) (st : List Word) (hd : Targets s (.reg j))
      (h : StackAfter s st) :
      StepEffect s ((((s.withStack st).withWait .none).withReg j v).advance n)
  /-- The memory Word of a literal destination is written (R127). -/
  | cell (w v : Word) (n : Nat) (st : List Word) (hd : Targets s (.lit w)) (hw : w.toNat < 32768)
      (h : StackAfter s st) :
      StepEffect s
        ((((s.withStack st).withWait .none).withMem (s.mem.writeWord w.toNat v)).advance n)
  /-- WMEM writes the memory Word at its first operand's value (R157). -/
  | wmem (a b : Operand) (v : Word) (hw : s.ioWait = .none) (hf : fetchInstr s = .ok (.wmem a b))
      (ha : (resolve a s).toNat < 32768) :
      StepEffect s ((s.withMem (s.mem.writeWord (resolve a s).toNat v)).advance 3)

theorem withWait_of_eq {s : State} {w : IoWait} (h : s.ioWait = w) : s.withWait w = s := by
  subst h; rfl

/-- A served receive's operand is the step's destination. -/
theorem Serves.targets {s : State} {w : IoWait} {d : Operand} (h : Serves s w)
    (hd : w = .waitReceive d) : Targets s d := by
  cases h with
  | resumed _ => exact .inl hd
  | out a _ _ => cases hd
  | inp a hw hf => cases hd; exact .inr ⟨hw, _, hf, rfl⟩

/-- One step of a rendezvous, seen from the state the step begins in. -/
theorem StepEffect.of_rendezvous {s u : State} {w : IoWait} (hs : Serves s w)
    (h : Rendezvous (s.withWait w) u) : StepEffect s u := by
  cases h with
  | raise k _ => exact .raise k
  | cancel hc => exact .halt .cancelled hc
  | persist _ => exact .wait w hs
  | sent v hv _ => exact .sent v (hv ▸ hs)
  | reg j ch hd _ => exact .reg j ch 2 s.stack (hs.targets hd) (.inl rfl)
  | cell a ch hd _ ha => exact .cell a ch 2 s.stack (hs.targets hd) ha (.inl rfl)

/-- An instruction's effect at a boundary that fetches it. -/
theorem StepEffect.of_effect {s u : State} {i : Instr} (hw : s.ioWait = .none)
    (hf : fetchInstr s = .ok i) (h : Effect i s u) : StepEffect s u := by
  have halt {r : HaltReason} (hc : HaltCause s r) : StepEffect s (s.halt r) := by
    simpa only [withWait_of_eq hw] using StepEffect.halt r hc
  have popped {st : List Word} (h : st = s.stack ∨ (∃ a, i = .pop a) ∧ Popped s st) :
      StackAfter s st :=
    h.imp_right fun ⟨⟨a, hi⟩, hp⟩ => ⟨⟨hw, i, hf, .inr ⟨a, .inr (.inl hi)⟩⟩, .inr hp⟩
  have idle (st : List Word) : (s.withStack st).withWait .none = s.withStack st :=
    withWait_of_eq hw
  cases h with
  | raise k _ => exact .raise k
  | halt hi => exact halt ⟨hw, hi ▸ hf⟩
  | emptyReturn hi hs => exact halt ⟨hw, hi ▸ hf, hs⟩
  | move p st _ h =>
    refine .move p st hw ?_
    rcases h with h | ⟨hi, hp⟩ | ⟨⟨a, hi⟩, hp⟩
    · exact .inl h
    · exact .inr ⟨⟨hw, i, hf, .inl hi⟩, .inr hp⟩
    · exact .inr ⟨⟨hw, i, hf, .inr ⟨a, hi.imp_right .inr⟩⟩, .inl hp⟩
  | reg j v n st hd h =>
    simpa only [idle] using StepEffect.reg j v n st (.inr ⟨hw, i, hf, hd⟩) (popped h)
  | cell w v n st hd ha h =>
    simpa only [idle] using StepEffect.cell w v n st (.inr ⟨hw, i, hf, hd⟩) ha (popped h)
  | wmem a b v hi ha => exact .wmem a b v hw (hi ▸ hf) ha
  | send a hi => exact .of_rendezvous (.out a hw (hi ▸ hf)) (send_cases _ s)
  | receive a hi => exact .of_rendezvous (.inp a hw (hi ▸ hf)) (receive_cases a s)

/-- The inversion lemma of `step`, in terms of effects. -/
theorem step_effect {s t : State} (h : step s = .next t) :
    s.run = .running ∧ ∃ u, t = u.pollEnv ∧ StepEffect s u := by
  obtain ⟨hr, u, rfl, hu⟩ := step_cases h
  refine ⟨hr, u, rfl, ?_⟩
  rcases hu with ⟨hw, rfl⟩ | ⟨hw, hs, rfl⟩ | ⟨_, _, k, _, rfl⟩ | ⟨hw, _, i, hf, hx⟩
  · exact .of_rendezvous (.resumed hw) (rendezvous_cases hw)
  · simpa only [withWait_of_eq hw] using
      StepEffect.halt (s := s) .cancelled (stopsAtBoundary_iff.mp hs).1
  · exact .raise k
  · exact .of_effect hw hf (exec_effect hx)

/-! ### The invariant -/

/-- With no rendezvous suspended, the invariant is that of memory, the output and the stack. -/
theorem State.Inv.of_ioWait_none {s : State} (hw : s.ioWait = .none) (hm : s.mem.wf)
    (hc : s.outClosed = true ↔ s.run ≠ .running)
    (hd : ∀ n, s.params.stackLimit = some n → s.stack.length ≤ n) : s.Inv where
  memory := hm
  closed := hc
  waiting h := absurd hw h
  atOut v h := by rw [hw] at h; cases h
  atIn d h := by rw [hw] at h; cases h
  depth := hd

/-- The environment's draw touches nothing the invariant speaks of. -/
theorem State.Inv.pollEnv {s : State} (h : s.Inv) : s.pollEnv.Inv where
  memory := h.memory
  closed := h.closed
  waiting := h.waiting
  atOut := h.atOut
  atIn := h.atIn
  depth := h.depth

/-- The rendezvous that a running step serves may stay suspended. -/
theorem State.Inv.withWait {s : State} {w : IoWait} (h : s.Inv) (hr : s.run = .running)
    (hs : Serves s w) : (s.withWait w).Inv := by
  cases hs with
  | resumed _ => exact h
  | out a hw hf =>
    exact ⟨h.memory, h.closed, fun _ => hr, fun v hv => by cases hv; exact ⟨a, hf, rfl⟩,
      fun _ hd => (nomatch hd), h.depth⟩
  | inp a hw hf =>
    exact ⟨h.memory, h.closed, fun _ => hr, fun _ hv => (nomatch hv),
      fun d hd => by cases hd; exact hf, h.depth⟩

/-- A step's push keeps the stack within STACK_LIMIT, since `Push` refuses at the limit (R150). -/
theorem StackAfter.length_le {s : State} {st : List Word} (h : StackAfter s st) {n : Nat}
    (hl : s.params.stackLimit = some n) (hn : s.stack.length ≤ n) : st.length ≤ n := by
  rcases h with rfl | ⟨_, ⟨hne, v, rfl⟩ | ⟨v, hv⟩⟩
  · exact hn
  · have : n ≠ s.stack.length := fun h => hne (h ▸ hl)
    simp only [List.length_append, List.length_singleton]
    omega
  · simp only [hv, List.length_append, List.length_singleton] at hn
    omega

/-- Every effect of a step keeps the invariant. -/
theorem State.Inv.of_stepEffect {s u : State} (hs : s.Inv) (hr : s.run = .running)
    (h : StepEffect s u) : u.Inv := by
  cases h with
  | raise k => exact .of_ioWait_none rfl hs.memory (by simp) hs.depth
  | halt r _ => exact .of_ioWait_none rfl hs.memory (by simp) hs.depth
  | wait w hw => exact hs.withWait hr hw
  | sent v _ => exact .of_ioWait_none rfl hs.memory hs.closed hs.depth
  | move p st hw h =>
    exact .of_ioWait_none hw hs.memory hs.closed fun n hl => h.length_le hl (hs.depth n hl)
  | reg j v n st _ h =>
    exact .of_ioWait_none rfl hs.memory hs.closed fun n hl => h.length_le hl (hs.depth n hl)
  | cell w v n st _ hw h =>
    exact .of_ioWait_none rfl (Memory.wf_writeWord hs.memory v hw) hs.closed
      fun n hl => h.length_le hl (hs.depth n hl)
  | wmem a b v hw _ ha =>
    exact .of_ioWait_none hw (Memory.wf_writeWord hs.memory v ha) hs.closed hs.depth

/-- Settles O45: each of the eight effects of a step keeps the invariant, and the draw after it does. -/
theorem stepKeepsInvariant : Obligations.StepKeepsInvariant := by
  intro s t hs h
  obtain ⟨hr, u, rfl, hu⟩ := step_effect h
  exact (hs.of_stepEffect hr hu).pollEnv

/-- Settles O46: nothing is suspended or listed, and the default STACK_LIMIT is none. -/
theorem resetSatisfiesInvariant : Obligations.ResetSatisfiesInvariant :=
  .of_ioWait_none rfl Memory.wf_nil (by decide) fun _ h => (nomatch h)

/-! ### Frames -/

/-- An effect that changes a register writes it as the step's destination. -/
theorem StepEffect.targets_of_reg_ne {s u : State} {i : Fin 8} (h : StepEffect s u)
    (hne : u.reg i ≠ s.reg i) : Targets s (.reg i) := by
  cases h with
  | reg j v n st hd _ =>
    by_cases hij : i = j
    · exact hij ▸ hd
    · exact absurd (State.reg_withReg_other v s hij) hne
  | raise _ | halt _ _ | wait _ _ | sent _ _ | move _ _ _ _ | cell _ _ _ _ _ _ _
  | wmem _ _ _ _ _ _ => exact absurd rfl hne

/-- Settles O48: only the effect on a destination register touches the register file, at that register. -/
theorem registersChangeOnlyThroughDestination :
    Obligations.RegistersChangeOnlyThroughDestination := by
  intro s t i h hne
  obtain ⟨_, u, rfl, hu⟩ := step_effect h
  exact hu.targets_of_reg_ne hne

/-- A byte that a Word's writing changes lies in that Word. -/
theorem div_two_of_readByte_writeWord_ne {m : Memory} {k a : Nat} {v : Word}
    (h : (m.writeWord k v).readByte a ≠ m.readByte a) : a / 2 = k :=
  not_imp_comm.mp (Memory.readByte_writeWord_other m k v a) h

/-- An effect that changes a byte writes its Word through a literal destination or by WMEM. -/
theorem StepEffect.of_readByte_ne {s u : State} {a : Nat} (h : StepEffect s u)
    (hne : u.mem.readByte a ≠ s.mem.readByte a) :
    (∃ w : Word, Targets s (.lit w) ∧ a / 2 = w.toNat) ∨
    s.ioWait = .none ∧ ∃ p q, fetchInstr s = .ok (.wmem p q) ∧ a / 2 = (resolve p s).toNat := by
  cases h with
  | cell w v n st hd _ _ => exact .inl ⟨w, hd, div_two_of_readByte_writeWord_ne hne⟩
  | wmem p q v hw hf _ => exact .inr ⟨hw, p, q, hf, div_two_of_readByte_writeWord_ne hne⟩
  | raise _ | halt _ _ | wait _ _ | sent _ _ | move _ _ _ _ | reg _ _ _ _ _ _ =>
    exact absurd rfl hne

/-- Settles O49: only a literal destination and WMEM touch memory, each at its one Word. -/
theorem memoryChangesOnlyByDestinationOrWmem :
    Obligations.MemoryChangesOnlyByDestinationOrWmem := by
  intro s t a h hne
  obtain ⟨_, u, rfl, hu⟩ := step_effect h
  rcases hu.of_readByte_ne hne with ⟨w, hd | ⟨hw, i, hf, hd⟩, ha⟩ | ⟨hw, p, q, hf, ha⟩
  · exact .inl ⟨w, hd, ha⟩
  · exact .inr ⟨hw, i, hf, .inl ⟨w, hd, ha⟩⟩
  · exact .inr ⟨hw, _, hf, .inr ⟨p, q, rfl, ha⟩⟩

/-- Every effect leaves a stack that `StackAfter` allows. -/
theorem StepEffect.stackAfter {s u : State} (h : StepEffect s u) : StackAfter s u.stack := by
  cases h with
  | move _ _ _ h | reg _ _ _ _ _ h | cell _ _ _ _ _ _ h => exact h
  | raise _ | halt _ _ | wait _ _ | sent _ _ | wmem _ _ _ _ _ _ => exact .inl rfl

/-- Settles O50: a stack that is not the same comes from a stack instruction at a boundary. -/
theorem stackChangesOnlyByStackInstructions : Obligations.StackChangesOnlyByStackInstructions := by
  intro s t h hne
  obtain ⟨_, u, rfl, hu⟩ := step_effect h
  exact (hu.stackAfter.resolve_left hne).1

/-- What no effect undoes: a closed output, the host's `cancel` and the parameters (R38, R40, R42). -/
theorem StepEffect.latches {s u : State} (h : StepEffect s u) :
    (s.outClosed = true → u.outClosed = true) ∧ u.cancel = s.cancel ∧ u.params = s.params := by
  cases h with
  | raise _ | halt _ _ => exact ⟨fun _ => rfl, rfl, rfl⟩
  | wait _ _ | sent _ _ | move _ _ _ _ | reg _ _ _ _ _ _ | cell _ _ _ _ _ _ _
  | wmem _ _ _ _ _ _ => exact ⟨id, rfl, rfl⟩

/-- Settles O52: no effect undoes them, and the environment's draw only raises `cancel`. -/
theorem latchesAndParametersPersist : Obligations.LatchesAndParametersPersist := by
  intro s t h
  obtain ⟨_, u, rfl, hu⟩ := step_effect h
  obtain ⟨hout, hcancel, hparams⟩ := hu.latches
  exact ⟨hout, fun hc => by simp [hcancel, hc], hparams⟩

/-! ### The end of a run -/

theorem step_halted {s : State} {r : HaltReason} (h : s.run = .halted r) :
    step s = .fault (.halted r) := by
  simp [step, turn, h]

theorem step_faulted {s : State} {k : FaultKind} (h : s.run = .faulted k) :
    step s = .fault (.faulted k) := by
  simp [step, turn, h]

/-- Settles O40: `turn` stops at a terminal run state before anything else. -/
theorem terminalStatesHaveNoStep : Obligations.TerminalStatesHaveNoStep :=
  fun _ => ⟨fun _ => step_halted, fun _ => step_faulted⟩

/-- A running state's effect that halts is `Halt(r)` itself (R37), for its cause (R36). -/
theorem StepEffect.eq_halt {s u : State} {r : HaltReason} (hr : s.run = .running)
    (h : StepEffect s u) (hu : u.run = .halted r) :
    u = (s.withWait .none).halt r ∧ HaltCause s r := by
  have running (h : s.run = .halted r) : False := by rw [hr] at h; cases h
  cases h with
  | raise k => cases hu
  | halt r' h => cases hu; exact ⟨rfl, h⟩
  | wait _ _ | sent _ _ | move _ _ _ _ | reg _ _ _ _ _ _ | cell _ _ _ _ _ _ _
  | wmem _ _ _ _ _ _ => exact (running hu).elim

/-- Settles O43: the one effect that halts changes the run state, the suspension and the output's closing
alone. -/
theorem haltsKeepTheState : Obligations.HaltsKeepTheState := by
  intro s t r h ht
  obtain ⟨hr, u, rfl, hu⟩ := step_effect h
  obtain ⟨rfl, _⟩ := hu.eq_halt hr ht
  exact ⟨rfl, rfl, rfl, rfl, rfl, rfl, rfl, rfl, step_halted ht⟩

/-- Settles O44: the effect that halts carries the cause of its reason. -/
theorem haltReasonsHaveTheirCauses : Obligations.HaltReasonsHaveTheirCauses := by
  intro s t r h ht
  obtain ⟨hr, u, rfl, hu⟩ := step_effect h
  obtain ⟨_, hc⟩ := hu.eq_halt hr ht
  cases r with
  | haltInstruction | emptyReturn | cancelled => exact hc

/-! ### Reset -/

theorem Memory.readWord_nil (k : Nat) : Memory.readWord [] k = 0 := by
  simp [Memory.readWord, Memory.readByte, joinBytes]

theorem State.reset_reg (i : Fin 8) : State.reset.reg i = 0 := by
  simp [State.reg, State.reset]

/-- Settles O55: empty memory and the zero registers read 0; the other fields are as defined. -/
theorem resetState : Obligations.ResetState :=
  ⟨Memory.readWord_nil, State.reset_reg, rfl, rfl, rfl, rfl, rfl⟩

end Sys2Proof.Machine

/-! What memory and the output show of a step: a written Word is what later fetches find (R63, R72), and the
output grows only by the Word the host takes (R74, R241). -/

namespace Sys2Proof.Machine

/-! ### A written Word is fetched -/

/-- A fetched window holds the Words of memory from `pc` on (R122). -/
theorem words_of_fetch_eq_ok {s : State} {w : Window} {j : Nat} (h : fetch s = .ok w) (hj : j < 4) :
    w.words[j]? = some (s.mem.readWord (s.pc.toNat + j)) := by
  rcases Nat.lt_or_ge 32764 s.pc.toNat with hp | hp
  · rw [fetch_out hp] at h; cases h
  · rw [fetch_ok hp] at h
    cases h
    interval_cases j <;> rfl

/-- A step that does not write a Word keeps it: only the writes that `WritesWord` names change memory
(R63). -/
theorem readWord_of_step_not_writesWord {s t : State} {k : Nat} (h : step s = .next t)
    (hk : ¬ WritesWord s k) : t.mem.readWord k = s.mem.readWord k := by
  refine Memory.readWord_congr fun a ha => by_contra fun hne => hk ?_
  subst ha
  rcases memoryChangesOnlyByDestinationOrWmem s t a h hne with
    ⟨w, hw, e⟩ | ⟨hw, i, hf, ⟨w, hd, e⟩ | ⟨p, q, hi, e⟩⟩
  · exact .inl ⟨w, hw, e.symm⟩
  · exact .inr ⟨hw, i, hf, .inl ⟨w, hd, e.symm⟩⟩
  · exact .inr ⟨hw, i, hf, .inr ⟨p, q, hi, e.symm⟩⟩

/-- Nor does any number of such steps change it. -/
theorem ReachesUnwritten.readWord_eq {k : Nat} {t u : State} (h : ReachesUnwritten k t u) :
    u.mem.readWord k = t.mem.readWord k := by
  induction h with
  | refl => rfl
  | tail _ hk hs ih => exact (readWord_of_step_not_writesWord hs hk).trans ih

/-- The Word that memory holds at `k` is the one that later fetches find there. -/
theorem seenByLaterFetches_of_readWord {k : Nat} {v : Word} {t : State}
    (h : t.mem.readWord k = v) : SeenByLaterFetches k v t := by
  intro t' u w j hm hu hf hj hk
  rw [words_of_fetch_eq_ok hf hj, hk, hu.readWord_eq, hm, h]

/-- Once `v` is written at `k`, later fetches find it there, and a window differs from what memory held
before at `k` alone. -/
theorem fetch_sees_writeWord {s t : State} {k v : Word}
    (hm : t.mem = s.mem.writeWord k.toNat v) :
    SeenByLaterFetches k.toNat v t ∧ ∀ p : Word, p.toNat ≤ 32764 →
      fetch { t with pc := p } = .ok (windowAfterWrite s k v p) := by
  refine ⟨seenByLaterFetches_of_readWord (by simp [hm]), fun p hp => ?_⟩
  rw [fetch_ok (s := { t with pc := p }) hp]
  simp [windowAfterWrite, hm, Memory.readWord_writeWord]

/-- WMEM at an address inside memory writes its Word and advances (R157). -/
theorem exec_wmem_ok {a b : Operand} {s : State} (h : (resolve a s).toNat < 32768) :
    exec (.wmem a b) s =
      .next ((s.withMem (s.mem.writeWord (resolve a s).toNat (resolve b s))).advance 3) := by
  simp only [exec, execWmem, memWrite_ok h, Except.map, settle_eq, commit_ok]

/-! ### Completion with a literal destination -/

/-- Any state whose memory is that of `s` with `v` written at `k`, and whose registers are those of `s`,
holds the result of `WriteTo(k, v)` (R127). -/
theorem stored_lit {s t : State} {k v : Word} (hm : t.mem = s.mem.writeWord k.toNat v)
    (hx : t.x = s.x) : Stored (.lit k) v s t :=
  ⟨by simp [hm], fun a ha => by rw [hm, Memory.readByte_writeWord_other _ _ _ _ ha],
    State.reg_congr hx⟩

/-- A suspended IN with a literal destination that completes has stored a Word there (R234). -/
theorem Rendezvous.stored {s u : State} {k : Word} (h : Rendezvous s u)
    (hd : s.ioWait = .waitReceive (.lit k)) (hr : u.run = .running) (hw : u.ioWait = .none) :
    ∃ v, Stored (.lit k) v s u := by
  cases h with
  | cell w ch hd' _ _ => cases hd.symm.trans hd'; exact ⟨ch, stored_lit rfl rfl⟩
  | raise _ _ | cancel _ => cases hr
  | persist _ => cases hd.symm.trans hw
  | sent v hd' _ | reg j ch hd' _ => cases hd.symm.trans hd'

/-- An instruction with a literal destination that completes has stored a Word there (R94, R127). -/
theorem Effect.stored {i : Instr} {s u : State} {k : Word} (h : Effect i s u)
    (hd : destOf i = some (.lit k)) (hr : u.run = .running) (hw : u.ioWait = .none) :
    ∃ v, Stored (.lit k) v s u := by
  cases h with
  | cell w v n st hd' _ _ => cases hd.symm.trans hd'; exact ⟨v, stored_lit rfl rfl⟩
  | receive a hi => subst hi; cases hd; exact (receive_cases _ s).stored rfl hr hw
  | raise _ _ => cases hr
  | halt hi | emptyReturn hi _ | wmem _ _ _ hi _ | send _ hi => subst hi; cases hd
  | move _ _ hd' _ | reg _ _ _ _ hd' _ => cases hd.symm.trans hd'

/-- A step that completes with the literal destination `k` has stored a Word there. -/
theorem stored_of_step_completes {s t : State} {k : Word} (h : step s = .next t)
    (hr : t.run = .running) (hw : t.ioWait = .none) (hd : Targets s (.lit k)) :
    ∃ v, Stored (.lit k) v s t := by
  obtain ⟨_, u, rfl, hu⟩ := step_cases h
  rcases hu with ⟨hs, rfl⟩ | ⟨_, _, rfl⟩ | ⟨_, _, _, _, rfl⟩ | ⟨hs, _, i, hf, hx⟩
  · exact (rendezvous_cases hs).stored (hd.resolve_right fun hn => hs hn.1) hr hw
  · cases hr
  · cases hr
  · rcases hd with hd | ⟨_, j, hj, hd⟩
    · cases hs.symm.trans hd
    · cases hf.symm.trans hj
      exact (exec_effect hx).stored hd hr hw

/-- Settles O54: each of these writes leaves its Word in memory, where only a step that writes the Word
again changes it, and a fetch reads memory. -/
theorem fetchSeesWrittenWord : Obligations.FetchSeesWrittenWord := by
  refine ⟨fun a b s ha => ?_, fun k v s hk => ?_, fun s t k h hr hw hd => ?_⟩
  · exact ⟨_, exec_wmem_ok (Nat.lt_succ_of_le ha), fetch_sees_writeWord rfl⟩
  · exact ⟨_, memWrite_ok (Nat.lt_succ_of_le hk) v s, fetch_sees_writeWord rfl⟩
  · have target : Targets s (.lit k) := hd.imp_right fun ⟨⟨_, hn⟩, hi⟩ => ⟨hn, hi⟩
    obtain ⟨v, hread, hframe⟩ := stored_of_step_completes h hr hw target
    exact ⟨v, ⟨hread, hframe⟩, seenByLaterFetches_of_readWord hread⟩

/-! ### The output -/

/-- The host takes the Word `v` between `s` and `u` (R132, R233), and the run goes on. -/
def Sends (s : State) (v : Word) (u : State) : Prop :=
  u.output = s.output ++ [v] ∧ s.envMove = .take ∧ u.run = s.run

/-- A rendezvous sends nothing, or the Word of a suspended OUT. -/
theorem Rendezvous.output {s u : State} (h : Rendezvous s u) :
    u.output = s.output ∨ ∃ v, s.ioWait = .waitSend v ∧ Sends s v u := by
  cases h with
  | sent v hv hm => exact .inr ⟨v, hv, rfl, hm, rfl⟩
  | raise _ _ | cancel _ | persist _ | reg _ _ _ _ | cell _ _ _ _ _ => exact .inl rfl

/-- An instruction sends nothing, or is an OUT and sends its operand's value. -/
theorem Effect.output {i : Instr} {s u : State} (h : Effect i s u) :
    u.output = s.output ∨ ∃ a, i = .out a ∧ Sends s (resolve a s) u := by
  cases h with
  | send a hi =>
    exact (send_cases _ s).output.imp_right fun ⟨v, hv, hs⟩ => by cases hv; exact ⟨a, hi, hs⟩
  | receive a _ => exact (receive_cases a s).output.imp_right fun ⟨_, hv, _⟩ => nomatch hv
  | raise _ _ | halt _ | emptyReturn _ _ | move _ _ _ _ | reg _ _ _ _ _ _ | cell _ _ _ _ _ _ _
  | wmem _ _ _ _ _ => exact .inl rfl

/-- Settles O36: a step serves a suspension, stops, faults or runs an instruction; only the OUT of the first
and of the last sends. -/
theorem outputGrowsOnlyByCompletedOut : Obligations.OutputGrowsOnlyByCompletedOut := by
  intro s t h
  obtain ⟨hr, u, rfl, hu⟩ := step_cases h
  rcases hu with ⟨hw, rfl⟩ | ⟨_, _, rfl⟩ | ⟨_, _, _, _, rfl⟩ | ⟨hw, _, i, hf, hx⟩
  · refine (rendezvous_cases hw).output.imp_right ?_
    rintro ⟨v, hv, hout, hm, hrun⟩
    exact ⟨v, hout, hm, hr, hrun.trans hr, .inl hv⟩
  · exact .inl rfl
  · exact .inl rfl
  · refine (exec_effect hx).output.imp_right ?_
    rintro ⟨a, rfl, hout, hm, hrun⟩
    exact ⟨_, hout, hm, hr, hrun.trans hr, .inr ⟨hw, a, hf, rfl⟩⟩

end Sys2Proof.Machine

/-! Decoding and encoding through one relation, `Names`, between a window and the instruction its opcode word
and used slots stand for (R90, R93, R95): the operand check (R124) alone decides whether the decoder answers
that instruction. From it the two round trips and the three outcomes of R98; then the progress of a running
machine. -/

namespace Sys2Proof.Machine

/-! ### The instruction a window names -/

/-- The operand Words of a window that an instruction with `n` operands uses (R90, R91). -/
def slots (w : Window) (n : Nat) : List Word := [w.a, w.b, w.c].take n

/-- The operand check (R124): every Word is one that R93 gives a meaning. -/
abbrev ValidSlots (vs : List Word) : Prop := ∀ v ∈ vs, v.toNat ≤ 32775

/-- The window's opcode word is that of `i` and its used slots stand for the operands of `i`, whether or not
they pass the operand check. -/
structure Names (w : Window) (i : Instr) : Prop where
  opcode : w.op = i.opcode
  operands : (slots w i.operands.length).map operandOf = i.operands

/-- Every legal opcode word names an instruction (R95). -/
theorem exists_names {w : Window} (h : w.op.toNat ≤ 21) : ∃ i, Names w i := by
  have hop : w.op = BitVec.ofNat 16 w.op.toNat := by simp
  generalize w.op.toNat = n at h hop
  interval_cases n
  exacts [⟨.halt, hop, rfl⟩, ⟨.set _ _, hop, rfl⟩, ⟨.push _, hop, rfl⟩, ⟨.pop _, hop, rfl⟩,
    ⟨.eq _ _ _, hop, rfl⟩, ⟨.gt _ _ _, hop, rfl⟩, ⟨.jmp _, hop, rfl⟩, ⟨.jt _ _, hop, rfl⟩,
    ⟨.jf _ _, hop, rfl⟩, ⟨.add _ _ _, hop, rfl⟩, ⟨.mult _ _ _, hop, rfl⟩, ⟨.mod _ _ _, hop, rfl⟩,
    ⟨.and _ _ _, hop, rfl⟩, ⟨.or _ _ _, hop, rfl⟩, ⟨.not _ _, hop, rfl⟩, ⟨.rmem _ _, hop, rfl⟩,
    ⟨.wmem _ _, hop, rfl⟩, ⟨.call _, hop, rfl⟩, ⟨.ret, hop, rfl⟩, ⟨.out _, hop, rfl⟩,
    ⟨.inp _, hop, rfl⟩, ⟨.noop, hop, rfl⟩]

/-- The operand check alone decides what a window that names an instruction decodes to (R97, R98). -/
theorem Names.decode_eq {w : Window} {i : Instr} (h : Names w i) :
    decode w = if ValidSlots (slots w i.operands.length) then .ok i else .error .invalidOperand := by
  obtain ⟨op, a, b, c⟩ := w
  obtain ⟨hop, hargs⟩ := h
  cases i with
  | halt | ret | noop =>
    cases hop
    rw [if_pos (by simp [ValidSlots, slots, Instr.operands])]
    rfl
  | push x | pop x | jmp x | call x | out x | inp x =>
    cases hargs
    cases hop
    exact (decodeF1_eq _ _).trans (by simp [ValidSlots, slots, Instr.operands])
  | set x y | jt x y | jf x y | not x y | rmem x y | wmem x y =>
    cases hargs
    cases hop
    exact (decodeF2_eq _ _).trans (by simp [ValidSlots, slots, Instr.operands])
  | eq x y z | gt x y z | add x y z | mult x y z | mod x y z | and x y z | or x y z =>
    cases hargs
    cases hop
    exact (decodeF3_eq _ _).trans (by simp [ValidSlots, slots, Instr.operands])

theorem decode_of_opcode_gt {w : Window} (h : 21 < w.op.toNat) :
    decode w = .error .invalidOpcode := by
  obtain ⟨k, hk⟩ : ∃ k, w.op.toNat = k + 22 := ⟨w.op.toNat - 22, by omega⟩
  unfold decode
  rw [hk]
  rfl

/-- A window that decodes to an instruction names it, and its used slots pass the operand check. -/
theorem names_of_decode_eq_ok {w : Window} {i : Instr} (h : decode w = .ok i) :
    Names w i ∧ ValidSlots (slots w i.operands.length) := by
  rcases Nat.lt_or_ge 21 w.op.toNat with hop | hop
  · rw [decode_of_opcode_gt hop] at h; cases h
  · obtain ⟨j, hj⟩ := exists_names hop
    rw [hj.decode_eq] at h
    split at h
    · next hv => cases h; exact ⟨hj, hv⟩
    · cases h

/-! ### The arity of an opcode -/

/-- An instruction has as many operands as its opcode takes (R95). -/
theorem arityOf_opcode (i : Instr) : arityOf i.opcode = some i.operands.length := by
  cases i <;> rfl

theorem Names.arityOf_eq {w : Window} {i : Instr} (h : Names w i) :
    arityOf w.op = some i.operands.length := by
  rw [h.opcode, arityOf_opcode]

theorem arityOf_eq_none {op : Word} (h : 21 < op.toNat) : arityOf op = none := by
  simp only [arityOf, List.mem_cons, List.not_mem_nil, or_false]
  repeat rw [if_neg (by omega)]

theorem length_operands_le (i : Instr) : i.operands.length ≤ 3 := by
  cases i <;> simp [Instr.operands]

/-! ### Encoding and decoding -/

/-- The Words of valid slots are the encodings of the operands they stand for (R93). -/
theorem ValidSlots.map_encodeOperand {vs : List Word} (h : ValidSlots vs) :
    (vs.map operandOf).map encodeOperand = vs := by
  rw [List.map_map]
  exact (List.map_congr_left fun v hv => encodeOperand_operandOf (h v hv)).trans (List.map_id vs)

/-- The operands that valid slots stand for are well formed (R93). -/
theorem ValidSlots.wellFormed {vs : List Word} (h : ValidSlots vs) :
    (vs.map operandOf).all Operand.wellFormed = true := by
  simpa using fun v hv => operandOf_wellFormed (h v hv)

/-- At most three operand Words after the opcode word are the window's used slots, whatever follows. -/
theorem slots_ofWords (op : Word) (rest : List Word) :
    ∀ {vs : List Word}, vs.length ≤ 3 → slots (Window.ofWords (op :: vs ++ rest)) vs.length = vs
  | [], _ | [_], _ | [_, _], _ | [_, _, _], _ => rfl

/-- The window of an instruction's encoding has as its used slots the operands' Words. -/
theorem slots_encode (i : Instr) (rest : List Word) :
    slots (Window.ofWords (encode i ++ rest)) i.operands.length = i.operands.map encodeOperand := by
  simpa [encode] using slots_ofWords i.opcode rest (vs := i.operands.map encodeOperand)
    (by simpa using length_operands_le i)

/-- The Words of well-formed operands are valid and stand for those operands (R93). -/
theorem validSlots_map_encodeOperand {os : List Operand} (h : os.all Operand.wellFormed = true) :
    ValidSlots (os.map encodeOperand) ∧ (os.map encodeOperand).map operandOf = os := by
  rw [List.all_eq_true] at h
  constructor
  · simpa [ValidSlots] using fun o ho => (operandOf_encodeOperand (h o ho)).1
  · rw [List.map_map]
    exact (List.map_congr_left fun o ho => (operandOf_encodeOperand (h o ho)).2).trans
      (List.map_id os)

/-- Settles O1: the encoding's window names the instruction, and its slots pass the operand check. -/
theorem decodeOfEncodeIsIdentity : Obligations.DecodeOfEncodeIsIdentity := by
  intro i rest h
  obtain ⟨hvalid, hargs⟩ := validSlots_map_encodeOperand h
  have names : Names (Window.ofWords (encode i ++ rest)) i := ⟨rfl, by rw [slots_encode, hargs]⟩
  rw [names.decode_eq, slots_encode, if_pos hvalid]

/-- Settles O2: a decoded window names the instruction, so its Words are the opcode word and the used
slots, which are the encodings of the operands. -/
theorem encodeOfDecodeIsPrefix : Obligations.EncodeOfDecodeIsPrefix := by
  intro w i h
  obtain ⟨⟨hop, hargs⟩, hvalid⟩ := names_of_decode_eq_ok h
  constructor
  · rw [Instr.WellFormed, Instr.wellFormed, ← hargs]
    exact hvalid.wellFormed
  · calc encode i = w.op :: i.operands.map encodeOperand := by rw [encode, hop]
      _ = w.op :: slots w i.operands.length := by
        rw [← hvalid.map_encodeOperand, hargs]
      _ = w.words.take i.length := by rw [Instr.length, Nat.add_comm]; rfl

/-- Settles O3: an opcode word above 21 has no arity and is InvalidOpcode; any other names an instruction,
and the operand check decides between that instruction and InvalidOperand. -/
theorem decodeIsTotal : Obligations.DecodeIsTotal := by
  intro w
  rcases Nat.lt_or_ge 21 w.op.toNat with hop | hop
  · simp [decode_of_opcode_gt hop, arityOf_eq_none hop, hop]
  · obtain ⟨i, hi⟩ := exists_names hop
    have above (k : Nat) : 32776 ≤ k ↔ 32775 < k := Nat.succ_le_iff
    by_cases hv : ValidSlots (slots w i.operands.length)
    · have hd : decode w = .ok i := by rw [hi.decode_eq, if_pos hv]
      simpa [hd, hi.arityOf_eq, hop, above, Instr.length, slots, ValidSlots] using hv
    · have hd : decode w = .error .invalidOperand := by rw [hi.decode_eq, if_neg hv]
      simpa [hd, hi.arityOf_eq, hop, above, slots, ValidSlots] using hv

/-- Settles O4: the decoder evaluated on each of the nine windows. -/
theorem exampleWordsDecode : Obligations.ExampleWordsDecode := by
  unfold Obligations.ExampleWordsDecode
  decide

/-! ### Progress -/

/-- A boundary that takes the stop ends the run there (R121). -/
theorem step_stop {s : State} (hr : s.run = .running) (hw : s.ioWait = .none)
    (hs : stopsAtBoundary s = true) : step s = .next (s.halt .cancelled).pollEnv := by
  simp [step, turn, hr, hw, hs]

/-- A boundary at which fetch or decode fails raises that fault (R130, R271). -/
theorem step_raise {s : State} {k : FaultKind} (hr : s.run = .running) (hw : s.ioWait = .none)
    (hs : stopsAtBoundary s = false) (hf : fetchInstr s = .error k) :
    step s = .next (s.raise k).pollEnv := by
  simp [step, turn, hr, hw, hs, hf]

/-- Settles O41: a suspension, a boundary stop and a fault of fetch or decode are settled by the cycle, and
every handler has a next state. -/
theorem runningMachineAlwaysSteps : Obligations.RunningMachineAlwaysSteps := by
  intro s hr
  by_cases hw : s.ioWait = .none
  · cases hs : stopsAtBoundary s with
    | true => exact ⟨_, step_stop hr hw hs⟩
    | false =>
      cases hf : fetchInstr s with
      | error k => exact ⟨_, step_raise hr hw hs hf⟩
      | ok i =>
        obtain ⟨u, hu⟩ := exec_total i s
        exact ⟨u.pollEnv, by rw [step_issue hr hw hs hf, hu, onNext_next]⟩
  · exact ⟨_, step_suspended hr hw⟩

end Sys2Proof.Machine

/-! The address resolver (R125 to R127) and the dispatch of an instruction (R121, R128 to R131): what an operand
Word resolves to and writes, which handler a boundary runs, where `pc` is when an instruction completes, and
that no handler but those of OUT and IN reads the environment. -/

namespace Sys2Proof.Machine

/-! ### The address resolver -/

/-- Settles O5: `Classify` is a range check, and the range holds the eight register names. -/
theorem classifyNamesRegisters : Obligations.ClassifyNamesRegisters :=
  fun _ => ⟨fun _ => classify_eq_some, classify_eq_none⟩

/-- A Word that passes the operand check decodes to the operand it stands for (R93, R124). -/
theorem decodeOperand_eq_ok {w : Word} (h : w.toNat ≤ 32775) :
    decodeOperand w = .ok (operandOf w) := by
  rw [decodeOperand_eq, if_pos h]

theorem operandOf_eq_reg {w : Word} {i : Fin 8} (h : w.toNat = 32768 + i.val) :
    operandOf w = .reg i := by
  have hw : w = encodeOperand (.reg i) :=
    BitVec.eq_of_toNat_eq (h.trans (toNat_encodeOperand_reg i).symm)
  rw [hw, (operandOf_encodeOperand (o := .reg i) rfl).2]

theorem operandOf_eq_lit {w : Word} (h : w.toNat ≤ 32767) : operandOf w = .lit w :=
  if_neg (by omega)

/-- Settles O6: `Resolve` reads the register the Word names, or is the Word. -/
theorem resolveReadsRegisterOrLiteral : Obligations.ResolveReadsRegisterOrLiteral := by
  intro w s hw
  refine ⟨operandOf w, decodeOperand_eq_ok hw, fun i hi => ?_, fun hl => ?_,
    fun s' hs => resolve_congr hs _⟩
  · rw [operandOf_eq_reg hi, resolve_reg]
  · rw [operandOf_eq_lit hl, resolve_lit]

/-- Settles O7: a checked Word stands for a well-formed destination, through which `WriteTo` stores and keeps
the rest (`writeTo_ok`). -/
theorem writeToStoresInRegisterOrCell : Obligations.WriteToStoresInRegisterOrCell := by
  intro w v s hw
  obtain ⟨t, ht, hstored, hpc, hstack, hwait, hrest⟩ := writeTo_ok (operandOf_wellFormed hw) v s
  refine ⟨operandOf w, t, decodeOperand_eq_ok hw, ht, fun i hi => ?_, fun hl => ?_,
    hpc, hstack, hwait, hrest⟩
  · rw [operandOf_eq_reg hi] at hstored
    obtain ⟨hreg, hothers, hmem⟩ := hstored
    exact ⟨hreg, hmem, hothers⟩
  · rw [operandOf_eq_lit hl] at hstored
    exact hstored

/-! ### The boundary -/

theorem stopsAtBoundary_eq_false_iff {s : State} :
    stopsAtBoundary s = false ↔ (s.cancel = true → s.envMove ≠ .stop) := by
  rw [← Bool.not_eq_true, stopsAtBoundary_iff, not_and]

/-- Settles O37: the four Words are what is fetched, and a boundary without a stop runs what it fetches. -/
theorem stepRunsTheDecodedInstruction : Obligations.StepRunsTheDecodedInstruction := by
  rintro s i ⟨hr, hw⟩ hstop hpc hdecode
  exact step_issue hr hw (stopsAtBoundary_eq_false_iff.mpr hstop)
    (fetchInstr_eq_ok.mpr ⟨hpc, hdecode⟩)

/-- Settles O38: the stop needs `cancel` and the move, and either one missing lets the instruction start. -/
theorem boundaryCancelMayStop : Obligations.BoundaryCancelMayStop := by
  rintro s ⟨hr, hw⟩
  refine ⟨fun hc hm => step_stop hr hw (stopsAtBoundary_iff.mpr ⟨hc, hm⟩), fun h i hf => ?_⟩
  refine step_issue hr hw (stopsAtBoundary_eq_false_iff.mpr fun hc => ?_) hf
  exact h.resolve_left fun hn => Bool.noConfusion (hn.symm.trans hc)

/-! ### Where `pc` is when an instruction completes -/

/-- The address after at most four Words fetched inside memory does not wrap (R128). -/
theorem State.toNat_pcPlus {s : State} {n : Nat} (hp : s.pc.toNat ≤ 32764) (hn : n ≤ 4) :
    (s.pcPlus n).toNat = s.pc.toNat + n := by
  rw [State.pcPlus, BitVec.toNat_ofNat, Nat.mod_eq_of_lt (by omega)]

theorem length_instr_le (i : Instr) : i.length ≤ 4 := by
  have := length_operands_le i
  rw [Instr.length]
  omega

/-- An instruction's checks and effect, where they succeed, leave `pc` at `p`. -/
def LeavesPc (r : Except FaultKind State) (p : Word) : Prop := ∀ u, r = .ok u → u.pc = p

theorem LeavesPc.ok {u : State} {p : Word} (h : u.pc = p) : LeavesPc (.ok u) p := by
  rintro _ ⟨⟩
  exact h

theorem LeavesPc.error (k : FaultKind) (p : Word) : LeavesPc (.error k) p := by
  rintro _ ⟨⟩

/-- A handler that does not fault leaves `pc` where its effect does. -/
theorem LeavesPc.of_settle {s u : State} {r : Except FaultKind State} {p : Word} (hr : LeavesPc r p)
    (h : settle s r = .next u) (hrun : u.run = .running) : u.pc = p := by
  cases r with
  | ok t => cases h; exact hr t rfl
  | error k => cases h; cases hrun

/-- A further step of the effect, from whatever value the checks before it gave. -/
theorem LeavesPc.bind {α : Type} {x : Except FaultKind α} {f : α → Except FaultKind State} {p : Word}
    (h : ∀ a, x = .ok a → LeavesPc (f a) p) : LeavesPc (x.bind f) p := by
  cases x with
  | ok a => exact h a rfl
  | error k => exact .error k p

/-- An effect that keeps `pc`, followed by the advance (R128). -/
theorem LeavesPc.advance {r : Except FaultKind State} {s : State} (h : LeavesPc r s.pc) (n : Nat) :
    LeavesPc (r.map (State.advance n)) (s.pcPlus n) := by
  cases r with
  | ok t => exact .ok (by rw [State.advance_pc, h t rfl, State.pcPlus])
  | error k => exact .error k _

theorem leavesPc_memWrite (a v : Word) (s : State) : LeavesPc (memWrite a v s) s.pc := by
  unfold memWrite
  split
  · exact .ok rfl
  · exact .error _ _

theorem leavesPc_push (v : Word) (s : State) : LeavesPc (push v s) s.pc := by
  unfold push
  split
  · exact .error _ _
  · exact .ok rfl

theorem leavesPc_storeAdvance (d : Operand) (v : Word) (n : Nat) (s : State) :
    LeavesPc (storeAdvance d v n s) (s.pcPlus n) := by
  refine LeavesPc.advance ?_ n
  cases d with
  | reg i => exact .ok rfl
  | lit w => exact leavesPc_memWrite w v s

/-- A rendezvous that ends with the run going on is complete, and advances past OUT or IN (R233, R234). -/
theorem Rendezvous.pc_eq {s u : State} (h : Rendezvous s u) (hs : s.ioWait ≠ .none)
    (hrun : u.run = .running) (hwait : u.ioWait = .none) : u.pc = s.pcPlus 2 := by
  cases h with
  | sent _ _ _ | reg _ _ _ _ | cell _ _ _ _ _ => rfl
  | persist _ => exact absurd hwait hs
  | raise _ _ | cancel _ => cases hrun

/-- The jumping instructions (R201 to R205): their `pc` is not simply the next instruction's. -/
def IsJump : Instr → Prop
  | .jmp _ | .call _ | .ret | .jt _ _ | .jf _ _ => True
  | _ => False

/-- An instruction that does not jump, where it completes, leaves `pc` just past its Words (R128). -/
theorem pc_of_exec_completes {i : Instr} {s u : State} (hx : exec i s = .next u) (hi : ¬ IsJump i)
    (hrun : u.run = .running) (hwait : u.ioWait = .none) : u.pc = s.pcPlus i.length := by
  cases i with
  | jmp _ | call _ | ret | jt _ _ | jf _ _ => exact absurd trivial hi
  | halt => cases hx; cases hrun
  | noop => cases hx; rfl
  | set _ _ | eq _ _ _ | gt _ _ _ | add _ _ _ | mult _ _ _ | and _ _ _ | or _ _ _ | not _ _ =>
    exact (leavesPc_storeAdvance _ _ _ s).of_settle hx hrun
  | mod _ _ _ | rmem _ _ =>
    exact (LeavesPc.bind fun v _ => leavesPc_storeAdvance _ v _ s).of_settle hx hrun
  | pop a =>
    refine (LeavesPc.bind fun r hr => ?_).of_settle hx hrun
    rcases pop_cases s with ⟨_, e⟩ | ⟨v, rest, _, e⟩
    · cases e.symm.trans hr
    · cases e.symm.trans hr
      exact leavesPc_storeAdvance a v 2 (s.withStack rest)
  | push a => exact ((leavesPc_push _ s).advance 2).of_settle hx hrun
  | wmem a b => exact ((leavesPc_memWrite _ _ s).advance 3).of_settle hx hrun
  | out a => cases hx; exact (send_cases _ s).pc_eq (by simp) hrun hwait
  | inp a => cases hx; exact (receive_cases a s).pc_eq (by simp) hrun hwait

/-- CALL, where it completes, leaves `pc` at its target (R204). -/
theorem pc_of_exec_call {a : Operand} {s u : State} (hx : exec (.call a) s = .next u)
    (hrun : u.run = .running) : u.pc = resolve a s := by
  refine LeavesPc.of_settle ?_ hx hrun
  cases push (s.pcPlus 2) s with
  | ok t => exact .ok rfl
  | error k => exact .error k _

theorem exec_ret_empty {s : State} (h : s.stack = []) :
    exec .ret s = .next (s.halt .emptyReturn) := by
  simp [exec, execRet, stackEmpty, h]

theorem exec_ret_pop {s : State} {v : Word} {rest : List Word} (h : s.stack = rest ++ [v]) :
    exec .ret s = .next ((s.withStack rest).withPc v) := by
  simp [exec, execRet, stackEmpty, h, pop_ok h, Except.map]

/-- RET, where it completes, has popped the Word it leaves `pc` at (R205). -/
theorem stack_of_exec_ret {s u : State} (hx : exec .ret s = .next u) (hrun : u.run = .running) :
    ∃ rest, s.stack = rest ++ [u.pc] := by
  rcases pop_cases s with ⟨hs, _⟩ | ⟨v, rest, hs, _⟩
  · cases (exec_ret_empty hs).symm.trans hx
    cases hrun
  · cases (exec_ret_pop hs).symm.trans hx
    exact ⟨rest, hs⟩

/-- A conditional jump goes to its target or past its three Words (R202, R203; C1). -/
theorem pc_jumpIf (taken : Bool) (target : Word) (s : State) :
    (jumpIf taken target s).pc = target ∨ (jumpIf taken target s).pc = s.pcPlus 3 := by
  cases taken with
  | true => exact .inl rfl
  | false => exact .inr rfl

/-- A boundary's step that leaves the run going is that of the instruction fetched: a boundary stop ends the
run. -/
theorem exec_of_step {s t : State} {i : Instr} (hw : s.ioWait = .none) (hf : fetchInstr s = .ok i)
    (h : step s = .next t) (hrun : t.run = .running) : ∃ u, t = u.pollEnv ∧ exec i s = .next u := by
  obtain ⟨_, u, rfl, hu⟩ := step_cases h
  rcases hu with ⟨hn, _⟩ | ⟨_, _, rfl⟩ | ⟨_, _, _, _, rfl⟩ | ⟨_, _, j, hj, hx⟩
  · exact absurd hw hn
  · cases hrun
  · cases hrun
  · cases hj.symm.trans hf
    exact ⟨u, rfl, hx⟩

/-- Settles O51: the step is the handler's; a handler that does not jump advances by the length, which from
a fetched window cannot wrap, and each jump leaves `pc` at its own target. -/
theorem completedInstructionsAdvanceByLength :
    Obligations.CompletedInstructionsAdvanceByLength := by
  rintro s t i ⟨_, hw⟩ hf h hrun hwait
  obtain ⟨u, rfl, hx⟩ := exec_of_step hw hf h hrun
  have hp : s.pc.toNat ≤ 32764 := (fetchInstr_eq_ok.mp hf).1
  have advances (hi : ¬ IsJump i) :
      u.pc.toNat = s.pc.toNat + i.length ∧ u.pc.toNat ≤ 32768 := by
    have hlen := length_instr_le i
    rw [pc_of_exec_completes hx hi hrun hwait, State.toNat_pcPlus hp hlen]
    omega
  have branches {taken : Bool} {target : Word} (hu : jumpIf taken target s = u) :
      u.pc = target ∨ u.pc.toNat = s.pc.toNat + 3 := by
    subst hu
    exact (pc_jumpIf taken target s).imp_right fun e => by rw [e, State.toNat_pcPlus hp (by omega)]
  cases i with
  | jmp a => cases hx; rfl
  | call a =>
    show u.pc = resolve a s
    exact pc_of_exec_call hx hrun
  | ret =>
    show ∃ rest, s.stack = rest ++ [u.pc]
    exact stack_of_exec_ret hx hrun
  | jt a b | jf a b => exact branches (Host.Outcome.next.inj hx)
  | halt | set _ _ | push _ | pop _ | eq _ _ _ | gt _ _ _ | add _ _ _ | mult _ _ _ | mod _ _ _
  | and _ _ _ | or _ _ _ | not _ _ | rmem _ _ | wmem _ _ | out _ | inp _ | noop =>
    exact advances id

/-! ### What does not read the environment

With other inputs in place, each operation of a handler gives what it gave before, with those inputs in
place. -/

section WithEnv

variable (c : Bool) (m : EnvMove) (n : Nat) (s : State)

theorem memWrite_withEnv (a v : Word) :
    memWrite a v (s.withEnv c m n) = (memWrite a v s).map (State.withEnv c m n) := by
  unfold memWrite
  split <;> rfl

theorem push_withEnv (v : Word) :
    push v (s.withEnv c m n) = (push v s).map (State.withEnv c m n) := by
  by_cases h : s.params.stackLimit = some s.stack.length
  · rw [push_full h, push_full (s := s.withEnv c m n) h]; rfl
  · rw [push_ok h, push_ok (s := s.withEnv c m n) h]; rfl

theorem pop_withEnv :
    pop (s.withEnv c m n) = (pop s).map (Prod.map id (State.withEnv c m n)) := by
  rcases pop_cases s with ⟨hs, e⟩ | ⟨v, rest, hs, e⟩
  · rw [e, pop_empty (s := s.withEnv c m n) hs]; rfl
  · rw [e, pop_ok (s := s.withEnv c m n) hs]; rfl

theorem jumpIf_withEnv (taken : Bool) (target : Word) :
    jumpIf taken target (s.withEnv c m n) = (jumpIf taken target s).withEnv c m n := by
  cases taken <;> rfl

/-- An update of other fields after an operation that does not notice the inputs. -/
theorem map_withEnv (g : State → State) (hg : ∀ t, g (t.withEnv c m n) = (g t).withEnv c m n)
    {r r' : Except FaultKind State} (h : r' = r.map (State.withEnv c m n)) :
    r'.map g = (r.map g).map (State.withEnv c m n) := by
  subst h
  cases r with
  | ok t => exact congrArg Except.ok (hg t)
  | error k => rfl

/-- An effect after a check that does not read the inputs. -/
theorem bind_withEnv {α : Type} (x : Except FaultKind α) {f g : α → Except FaultKind State}
    (h : ∀ a, g a = (f a).map (State.withEnv c m n)) :
    x.bind g = (x.bind f).map (State.withEnv c m n) := by
  cases x with
  | ok a => exact h a
  | error k => rfl

theorem storeAdvance_withEnv (d : Operand) (v : Word) (k : Nat) :
    storeAdvance d v k (s.withEnv c m n) =
      (storeAdvance d v k s).map (State.withEnv c m n) := by
  cases d with
  | reg i => rfl
  | lit w => exact map_withEnv c m n (State.advance k) (fun _ => rfl) (memWrite_withEnv c m n s w v)

variable {s}

/-- A handler whose checks and effect do not notice the inputs ends in the same outcome (R260). -/
theorem settle_withEnv {r r' : Except FaultKind State} (h : r' = r.map (State.withEnv c m n)) :
    settle (s.withEnv c m n) r' = onNext (State.withEnv c m n) (settle s r) := by
  subst h
  cases r <;> rfl

end WithEnv

/-- Settles O53: the operations that the handlers other than OUT and IN are made of do not notice the
inputs; operands are resolved in the register file. -/
theorem onlyIoReadsTheEnvironment : Obligations.OnlyIoReadsTheEnvironment := by
  intro i s c m n hi
  cases i with
  | out a => exact absurd rfl (hi a).1
  | inp a => exact absurd rfl (hi a).2
  | halt | jmp _ | noop => rfl
  | jt a b | jf a b => exact congrArg Host.Outcome.next (jumpIf_withEnv c m n s _ _)
  | set _ _ | eq _ _ _ | gt _ _ _ | add _ _ _ | mult _ _ _ | and _ _ _ | or _ _ _ | not _ _ =>
    exact settle_withEnv c m n (storeAdvance_withEnv c m n s _ _ _)
  | mod a _ _ | rmem a _ =>
    exact settle_withEnv c m n (bind_withEnv c m n _ fun v => storeAdvance_withEnv c m n s a v _)
  | pop a =>
    refine settle_withEnv c m n ?_
    rw [pop_withEnv]
    cases pop s with
    | ok r => exact storeAdvance_withEnv c m n r.2 a r.1 2
    | error k => rfl
  | push a =>
    exact settle_withEnv c m n
      (map_withEnv c m n (State.advance 2) (fun _ => rfl) (push_withEnv c m n s _))
  | wmem a b =>
    exact settle_withEnv c m n
      (map_withEnv c m n (State.advance 3) (fun _ => rfl) (memWrite_withEnv c m n s _ _))
  | call a =>
    exact settle_withEnv c m n
      (map_withEnv c m n (State.withPc (resolve a s)) (fun _ => rfl) (push_withEnv c m n s _))
  | ret =>
    rcases pop_cases s with ⟨hs, _⟩ | ⟨v, rest, hs, _⟩
    · rw [exec_ret_empty hs, exec_ret_empty (s := s.withEnv c m n) hs]; rfl
    · rw [exec_ret_pop hs, exec_ret_pop (s := s.withEnv c m n) hs]; rfl

end Sys2Proof.Machine

/-! Data movement (R153 to R157) and the stack around it (R150 to R152): the encodings of one and two operands
through `Names`, what each of the five handlers answers on each side of its check, and PUSH followed by POP. -/

namespace Sys2Proof.Machine

/-! ### Encodings with one and two operands -/

/-- A boundary without a stop that fetches a window whose operand check fails raises that fault (R124, R265). -/
theorem raisesInvalidOperand_of_decode {w : Window} (h : decode w = .error .invalidOperand) :
    RaisesInvalidOperand w := by
  rintro s ⟨hr, hw⟩ hstop hf
  have hfi : fetchInstr s = .error .invalidOperand := by simp [fetchInstr, hf, h, decodeFault]
  exact step_raise hr hw (stopsAtBoundary_eq_false_iff.mpr hstop) hfi

theorem Names.decode_eq_ok {w : Window} {i : Instr} (h : Names w i)
    (hv : ValidSlots (slots w i.operands.length)) : decode w = .ok i := by
  rw [h.decode_eq, if_pos hv]

theorem Names.raisesInvalidOperand {w : Window} {i : Instr} (h : Names w i)
    (hv : ¬ ValidSlots (slots w i.operands.length)) : RaisesInvalidOperand w :=
  raisesInvalidOperand_of_decode (by rw [h.decode_eq, if_neg hv])

/-- An instruction form with one operand and a fixed opcode is encoded in format F1 (R91). -/
theorem encodedF1 {op : Word} {mk : Operand → Instr} (hop : ∀ o, (mk o).opcode = op)
    (hargs : ∀ o, (mk o).operands = [o]) : EncodedF1 op mk := by
  refine ⟨fun o => by simp [encode, hop, hargs], fun a b c => ?_⟩
  have names : Names ⟨op, a, b, c⟩ (mk (operandOf a)) := ⟨(hop _).symm, by simp [hargs, slots]⟩
  have valid : ValidSlots (slots ⟨op, a, b, c⟩ (mk (operandOf a)).operands.length) ↔
      a.toNat ≤ 32775 := by simp [hargs, slots, ValidSlots]
  exact ⟨fun ha => names.decode_eq_ok (valid.mpr ha),
    fun ha => names.raisesInvalidOperand (by rw [valid]; omega)⟩

/-- An instruction form with two operands and a fixed opcode is encoded in format F2 (R91). -/
theorem encodedF2 {op : Word} {mk : Operand → Operand → Instr} (hop : ∀ o p, (mk o p).opcode = op)
    (hargs : ∀ o p, (mk o p).operands = [o, p]) : EncodedF2 op mk := by
  refine ⟨fun o p => by simp [encode, hop, hargs], fun a b c => ?_⟩
  have names : Names ⟨op, a, b, c⟩ (mk (operandOf a) (operandOf b)) :=
    ⟨(hop _ _).symm, by simp [hargs, slots]⟩
  have valid : ValidSlots (slots ⟨op, a, b, c⟩ (mk (operandOf a) (operandOf b)).operands.length) ↔
      a.toNat ≤ 32775 ∧ b.toNat ≤ 32775 := by simp [hargs, slots, ValidSlots]
  exact ⟨fun ha hb => names.decode_eq_ok (valid.mpr ⟨ha, hb⟩),
    fun h => names.raisesInvalidOperand (by rw [valid]; omega)⟩

/-! ### Storing through a destination -/

/-- Every operand of a well-formed instruction is well formed. -/
theorem wellFormed_of_mem_operands {i : Instr} {o : Operand} (h : i.WellFormed)
    (ho : o ∈ i.operands) : o.WellFormed :=
  List.all_eq_true.mp h o ho

/-- An instruction whose effect is the shared end of the storing instructions stores its result and keeps the
rest (R127, R128). -/
theorem storesResult_of_exec {i : Instr} {d : Operand} {v : Word} {n : Nat} {s : State}
    (hd : d.WellFormed) (h : exec i s = settle s (storeAdvance d v n s)) :
    StoresResult i d v n s := by
  obtain ⟨t, ht, hframe⟩ := storeAdvance_ok hd v n s
  exact ⟨t, by rw [h, ht, settle_eq, commit_ok], hframe⟩

/-- `Stored` compares with the memory and registers before the write alone. -/
theorem Stored.of_eq {d : Operand} {v : Word} {s s' t : State} (h : Stored d v s' t)
    (hm : s'.mem = s.mem) (hx : s'.x = s.x) : Stored d v s t := by
  cases d with
  | reg i =>
    obtain ⟨hreg, hothers, hmem⟩ := h
    exact ⟨hreg, fun j hj => (hothers j hj).trans (State.reg_congr hx j), fun a => hm ▸ hmem a⟩
  | lit w =>
    obtain ⟨hword, hmem, hregs⟩ := h
    exact ⟨hword, fun a ha => hm ▸ hmem a ha, fun j => (hregs j).trans (State.reg_congr hx j)⟩

/-- The stack is none of the fields that `SameRest` compares. -/
theorem SameRest.of_withStack {s t : State} {st : List Word} (h : SameRest (s.withStack st) t) :
    SameRest s t :=
  ⟨h.run, h.outClosed, h.cancel, h.envMove, h.tick, h.output, h.params⟩

/-! ### The handlers -/

/-- PUSH below STACK_LIMIT (R150, R154). -/
theorem exec_push_ok {a : Operand} {s : State} (h : s.params.stackLimit ≠ some s.stack.length) :
    exec (.push a) s = .next ((s.withStack (s.stack ++ [resolve a s])).advance 2) := by
  simp only [exec, execPush, push_ok h, Except.map, settle_eq, commit_ok]

/-- PUSH at STACK_LIMIT (R150). -/
theorem exec_push_full {a : Operand} {s : State} (h : s.params.stackLimit = some s.stack.length) :
    exec (.push a) s = .next (s.raise .stackOverflow) := by
  simp only [exec, execPush, push_full h, Except.map, settle_eq, commit_error]

/-- POP on a non-empty stack pops, then stores what it popped (R155). -/
theorem exec_pop_ok {a : Operand} {s : State} {v : Word} {rest : List Word}
    (h : s.stack = rest ++ [v]) :
    exec (.pop a) s = settle s (storeAdvance a v 2 (s.withStack rest)) := by
  simp only [exec, execPop, pop_ok h, Except.bind]

/-- POP on an empty stack (R151). -/
theorem exec_pop_empty {a : Operand} {s : State} (h : s.stack = []) :
    exec (.pop a) s = .next (s.raise .underflow) := by
  simp only [exec, execPop, pop_empty h, Except.bind, settle_eq, commit_error]

/-- What POP on a non-empty stack leaves (R155). -/
theorem exec_pop_stores {a : Operand} {s : State} {v : Word} {rest : List Word} (ha : a.WellFormed)
    (h : s.stack = rest ++ [v]) :
    ∃ t, exec (.pop a) s = .next t ∧ Stored a v s t ∧ t.pc = BitVec.ofNat 16 (s.pc.toNat + 2) ∧
      t.stack = rest ∧ t.ioWait = s.ioWait ∧ SameRest s t := by
  obtain ⟨t, ht, hstored, hpc, hstack, hwait, hrest⟩ := storeAdvance_ok ha v 2 (s.withStack rest)
  exact ⟨t, by rw [exec_pop_ok h, ht, settle_eq, commit_ok], hstored.of_eq rfl rfl, hpc, hstack,
    hwait, hrest.of_withStack⟩

/-- RMEM at an address inside memory (R156). -/
theorem exec_rmem_ok {a b : Operand} {s : State} (h : (resolve b s).toNat < 32768) :
    exec (.rmem a b) s =
      settle s (storeAdvance a (s.mem.readWord (resolve b s).toNat) 3 s) := by
  simp only [exec, execRmem, memRead_ok h, Except.bind]

/-- RMEM at an address above memory (R64, R156). -/
theorem exec_rmem_out {a b : Operand} {s : State} (h : 32768 ≤ (resolve b s).toNat) :
    exec (.rmem a b) s = .next (s.raise .memoryOutOfRange) := by
  simp only [exec, execRmem, memRead_out h, Except.bind, settle_eq, commit_error]

/-- WMEM at an address above memory (R64, R157). -/
theorem exec_wmem_out {a b : Operand} {s : State} (h : 32768 ≤ (resolve a s).toNat) :
    exec (.wmem a b) s = .next (s.raise .memoryOutOfRange) := by
  simp only [exec, execWmem, memWrite_out h, Except.map, settle_eq, commit_error]

/-! ### The statements -/

/-- Settles O8: SET is the shared end of the storing instructions, with the resolved source as its result. -/
theorem setStoresOperandValue : Obligations.SetStoresOperandValue := by
  refine ⟨encodedF2 (fun _ _ => rfl) (fun _ _ => rfl), fun a b s h => ?_⟩
  exact storesResult_of_exec (wellFormed_of_mem_operands h List.mem_cons_self) rfl

/-- Settles O9: `Push` appends below the limit and refuses at it. -/
theorem pushAppendsToTheStack : Obligations.PushAppendsToTheStack :=
  ⟨encodedF1 (fun _ => rfl) (fun _ => rfl), fun _ _ => ⟨exec_push_ok, exec_push_full⟩⟩

/-- Settles O10: what `Pop` gives is stored in the state without it; an empty stack is refused before the
write. -/
theorem popStoresTheTopWord : Obligations.PopStoresTheTopWord := by
  refine ⟨encodedF1 (fun _ => rfl) (fun _ => rfl), fun a s h => ⟨fun v rest hs => ?_, exec_pop_empty⟩⟩
  exact exec_pop_stores (wellFormed_of_mem_operands h List.mem_cons_self) hs

/-- Settles O11: the bounds check of the read decides between storing the Word read and the fault. -/
theorem rmemStoresTheAddressedWord : Obligations.RmemStoresTheAddressedWord := by
  refine ⟨encodedF2 (fun _ _ => rfl) (fun _ _ => rfl), fun a b s h => ⟨fun hb => ?_, exec_rmem_out⟩⟩
  exact storesResult_of_exec (wellFormed_of_mem_operands h List.mem_cons_self)
    (exec_rmem_ok (Nat.lt_succ_of_le hb))

/-- Settles O12: the bounds check of the write decides between writing one Word of memory and the fault. -/
theorem wmemWritesTheAddressedWord : Obligations.WmemWritesTheAddressedWord := by
  refine ⟨encodedF2 (fun _ _ => rfl) (fun _ _ => rfl), fun a b s => ⟨fun ha => ?_, exec_wmem_out⟩⟩
  exact ⟨_, exec_wmem_ok (Nat.lt_succ_of_le ha), by simp, withMem_writeWord_mem s _ _,
    SameRegs.refl s, rfl, rfl, rfl, ⟨rfl, rfl, rfl, rfl, rfl, rfl, rfl⟩⟩

/-- Settles O29: PUSH leaves the Word on top of the old stack, where POP finds it, and touches neither memory
nor registers. -/
theorem pushThenPopReturnsValue : Obligations.PushThenPopReturnsValue := by
  intro a d s hd hl
  obtain ⟨u, hu, hstored, -, hstack, -⟩ := exec_pop_stores hd
    (s := (s.withStack (s.stack ++ [resolve a s])).advance 2) (v := resolve a s) (rest := s.stack) rfl
  exact ⟨_, u, exec_push_ok hl, hu, hstored.of_eq rfl rfl, hstack⟩

end Sys2Proof.Machine

/-! The ALU (R170 to R179): the encoding of three operands, each operation on Words as arithmetic or bit by bit,
and the bound of 15 bits. Every handler ends in the shared end of the storing instructions, so what is left of
each statement is a fact about one Word operation; only MOD has a check of its own before it. -/

namespace Sys2Proof.Machine

/-! ### Encodings with three operands -/

/-- An instruction form with three operands and a fixed opcode is encoded in format F3 (R91). -/
theorem encodedF3 {op : Word} {mk : Operand → Operand → Operand → Instr}
    (hop : ∀ o p q, (mk o p q).opcode = op) (hargs : ∀ o p q, (mk o p q).operands = [o, p, q]) :
    EncodedF3 op mk := by
  refine ⟨fun o p q => by simp [encode, hop, hargs], fun a b c => ?_⟩
  have names : Names ⟨op, a, b, c⟩ (mk (operandOf a) (operandOf b) (operandOf c)) :=
    ⟨(hop _ _ _).symm, by simp [hargs, slots]⟩
  have valid : ValidSlots (slots ⟨op, a, b, c⟩
      (mk (operandOf a) (operandOf b) (operandOf c)).operands.length) ↔
      a.toNat ≤ 32775 ∧ b.toNat ≤ 32775 ∧ c.toNat ≤ 32775 := by simp [hargs, slots, ValidSlots]
  exact ⟨fun ha hb hc => names.decode_eq_ok (valid.mpr ⟨ha, hb, hc⟩),
    fun h => names.raisesInvalidOperand (by rw [valid]; omega)⟩

/-! ### The operations on Words -/

theorem eqWord_eq (b c : Word) : eqWord b c = if b = c then 1 else 0 := by
  simp only [eqWord, boolWord, decide_eq_true_eq]

theorem gtWord_eq (b c : Word) : gtWord b c = if b.toNat > c.toNat then 1 else 0 := by
  simp only [gtWord, boolWord, decide_eq_true_eq]

theorem toNat_addWord (b c : Word) :
    (addWord b c).toNat = (b.toNat + c.toNat) % 32768 := by
  simp only [addWord, Config.arithModulus, BitVec.toNat_ofNat]
  omega

theorem toNat_multWord (b c : Word) :
    (multWord b c).toNat = (b.toNat * c.toNat) % 32768 := by
  simp only [multWord, Config.arithModulus, BitVec.toNat_ofNat]
  omega

/-- By a non-zero divisor, MOD's result is the remainder of Words (R175). -/
theorem modWord_ok {c : Word} (h : c.toNat ≠ 0) (b : Word) : modWord b c = .ok (b % c) := by
  rw [modWord, if_neg h, BitVec.umod_def]

theorem modWord_zero {c : Word} (h : c.toNat = 0) (b : Word) :
    modWord b c = .error .divideByZero := by
  rw [modWord, if_pos h]

/-! ### Storing the result -/

/-- A well-formed instruction whose effect is the shared end of the storing instructions, through its first
operand, stores its result there and keeps the rest (R94, R127, R128). -/
theorem storesResult_of_wellFormed {i : Instr} {d : Operand} {os : List Operand} {v : Word} {n : Nat}
    {s : State} (h : i.WellFormed) (hargs : i.operands = d :: os)
    (hexec : exec i s = settle s (storeAdvance d v n s)) : StoresResult i d v n s :=
  storesResult_of_exec (wellFormed_of_mem_operands h (hargs ▸ List.mem_cons_self)) hexec

/-- MOD by a non-zero divisor (R175). -/
theorem exec_mod_ok {a b c : Operand} {s : State} (h : (resolve c s).toNat ≠ 0) :
    exec (.mod a b c) s = settle s (storeAdvance a (resolve b s % resolve c s) 4 s) := by
  simp only [exec, execMod, modWord_ok h, Except.bind]

/-- MOD by zero (R175). -/
theorem exec_mod_zero {a b c : Operand} {s : State} (h : (resolve c s).toNat = 0) :
    exec (.mod a b c) s = .next (s.raise .divideByZero) := by
  simp only [exec, execMod, modWord_zero h, Except.bind, settle_eq, commit_error]

/-- A result of 15 bits is what its destination register then holds. -/
theorem reg_le_of_exec {i : Instr} {j : Fin 8} {v : Word} {n : Nat} {s : State}
    (h : exec i s = settle s (storeAdvance (.reg j) v n s)) (hv : v.toNat ≤ 32767) :
    ∃ t, exec i s = .next t ∧ (t.reg j).toNat ≤ 32767 := by
  obtain ⟨t, ht, ⟨hreg, -, -⟩, -⟩ := storesResult_of_exec (d := .reg j) rfl h
  exact ⟨t, ht, hreg ▸ hv⟩

/-! ### The statements -/

/-- Settles O13: EQ's result is the truth value of the equality, as a Word. -/
theorem eqStoresOneOrZero : Obligations.EqStoresOneOrZero := by
  refine ⟨encodedF3 (fun _ _ _ => rfl) (fun _ _ _ => rfl), fun a b c s h => ?_⟩
  rw [← eqWord_eq]
  exact storesResult_of_wellFormed h rfl rfl

/-- Settles O14: GT's result is the truth value of the comparison, as a Word. -/
theorem gtStoresUnsignedGreater : Obligations.GtStoresUnsignedGreater := by
  refine ⟨encodedF3 (fun _ _ _ => rfl) (fun _ _ _ => rfl), fun a b c s h => ?_⟩
  rw [← gtWord_eq]
  exact storesResult_of_wellFormed h rfl rfl

/-- Settles O15: the sum of Words is the exact sum mod 65536, which 32768 divides. -/
theorem addStoresSumMod32768 : Obligations.AddStoresSumMod32768 := by
  refine ⟨encodedF3 (fun _ _ _ => rfl) (fun _ _ _ => rfl), fun a b c s h => ?_⟩
  refine ⟨_, toNat_addWord _ _, ?_, storesResult_of_wellFormed h rfl rfl⟩
  rw [toNat_addWord, BitVec.toNat_add, Nat.mod_mod_of_dvd _ (by decide)]

/-- Settles O16: the product of Words is the exact product mod 65536, which 32768 divides. -/
theorem multStoresProductMod32768 : Obligations.MultStoresProductMod32768 := by
  refine ⟨encodedF3 (fun _ _ _ => rfl) (fun _ _ _ => rfl), fun a b c s h => ?_⟩
  refine ⟨_, toNat_multWord _ _, ?_, storesResult_of_wellFormed h rfl rfl⟩
  rw [toNat_multWord, BitVec.toNat_mul, Nat.mod_mod_of_dvd _ (by decide)]

/-- Settles O17: the check of the divisor decides between storing the remainder and the fault. -/
theorem modStoresRemainder : Obligations.ModStoresRemainder := by
  refine ⟨encodedF3 (fun _ _ _ => rfl) (fun _ _ _ => rfl), fun a b c s h => ⟨fun hc => ?_, exec_mod_zero⟩⟩
  exact ⟨_, BitVec.toNat_umod, storesResult_of_wellFormed h rfl (exec_mod_ok hc)⟩

/-- Settles O18: AND's result is the bitwise and of all 16 bits. -/
theorem andStoresBitwiseAnd : Obligations.AndStoresBitwiseAnd := by
  refine ⟨encodedF3 (fun _ _ _ => rfl) (fun _ _ _ => rfl), fun a b c s h => ?_⟩
  exact ⟨_, fun _ => BitVec.getLsbD_and, storesResult_of_wellFormed h rfl rfl⟩

/-- Settles O19: OR's result is the bitwise or of all 16 bits. -/
theorem orStoresBitwiseOr : Obligations.OrStoresBitwiseOr := by
  refine ⟨encodedF3 (fun _ _ _ => rfl) (fun _ _ _ => rfl), fun a b c s h => ?_⟩
  exact ⟨_, fun _ => BitVec.getLsbD_or, storesResult_of_wellFormed h rfl rfl⟩

/-- Settles O20: NOT's result is the complement under the mask, whose value `toNat_notWord` gives. -/
theorem notStoresMaskedComplement : Obligations.NotStoresMaskedComplement := by
  refine ⟨encodedF2 (fun _ _ => rfl) (fun _ _ => rfl), fun a b s h => ?_⟩
  exact ⟨_, rfl, toNat_notWord _, storesResult_of_wellFormed h rfl rfl⟩

/-- Settles O21: the reductions of ADD, MULT and NOT bound every result; AND and MOD give at most their first
operand, and OR sets no bit that neither operand has. -/
theorem aluResultsStayIn15Bits : Obligations.AluResultsStayIn15Bits := by
  intro i b c s
  have addLe : (addWord (resolve b s) (resolve c s)).toNat ≤ 32767 := by rw [toNat_addWord]; omega
  have multLe : (multWord (resolve b s) (resolve c s)).toNat ≤ 32767 := by rw [toNat_multWord]; omega
  have notLe : (notWord (resolve b s)).toNat ≤ 32767 := by rw [toNat_notWord]; omega
  refine ⟨?_, reg_le_of_exec rfl notLe, fun hb hc => ⟨?_, fun hz => ?_⟩⟩
  · simp only [List.forall_mem_cons]
    exact ⟨reg_le_of_exec rfl addLe, reg_le_of_exec rfl multLe, List.forall_mem_nil _⟩
  · have andLe : (andWord (resolve b s) (resolve c s)).toNat ≤ 32767 :=
      Nat.and_le_left.trans hb
    have orLe : (orWord (resolve b s) (resolve c s)).toNat ≤ 32767 :=
      Nat.le_of_lt_succ (Nat.or_lt_two_pow (n := 15) (Nat.lt_succ_of_le hb) (Nat.lt_succ_of_le hc))
    simp only [List.forall_mem_cons]
    exact ⟨reg_le_of_exec rfl andLe, reg_le_of_exec rfl orLe, List.forall_mem_nil _⟩
  · have modLe : (resolve b s % resolve c s).toNat ≤ 32767 := by
      rw [BitVec.toNat_umod]
      exact (Nat.mod_le _ _).trans hb
    exact reg_le_of_exec (exec_mod_ok hz) modLe

end Sys2Proof.Machine

/-! Control transfer (R200 to R208): the encoding without operands, `pc` after a conditional jump as one choice
between its target and the next instruction, the fetch from a target too high, and the two sides of CALL's
push; then CALL followed by RET. -/

namespace Sys2Proof.Machine

/-! ### The encoding without operands -/

/-- An instruction without operands is encoded in format F0: no slot of its window is checked (R91, R97 c). -/
theorem encodedF0 {op : Word} {i : Instr} (hop : i.opcode = op) (hargs : i.operands = []) :
    EncodedF0 op i := by
  refine ⟨by simp [encode, hop, hargs], fun a b c => ?_⟩
  have names : Names ⟨op, a, b, c⟩ i := ⟨hop.symm, by simp [hargs, slots]⟩
  exact names.decode_eq_ok (by simp [hargs, slots, ValidSlots])

/-! ### Jumps -/

/-- The address above which nothing can be fetched is not checked by the jump but by the fetch after it
(R122, R207). -/
theorem faultsAtNextFetch (s : State) : FaultsAtNextFetch s := by
  rintro ⟨hr, hw⟩ hstop hpc
  have hf : fetchInstr s = .error .fetchOutOfRange := by simp only [fetchInstr, fetch_out hpc]
  exact step_raise hr hw (stopsAtBoundary_eq_false_iff.mpr hstop) hf

/-- A conditional jump changes `pc` alone, to its target or past its three Words (R202, R203; C1). -/
theorem jumpIf_eq_withPc (taken : Bool) (target : Word) (s : State) :
    jumpIf taken target s = s.withPc (if taken then target else s.pcPlus 3) := by
  cases taken with
  | true => rfl
  | false => rfl

/-- JT is taken on a non-zero Word (R202). -/
theorem exec_jt (a b : Operand) (s : State) :
    exec (.jt a b) s =
      .next (s.withPc (if resolve a s ≠ 0 then resolve b s else s.pcPlus 3)) := by
  simp only [exec, execJt, jumpIf_eq_withPc, truthy_iff]

/-- JF is taken on zero (R203). -/
theorem exec_jf (a b : Operand) (s : State) :
    exec (.jf a b) s =
      .next (s.withPc (if resolve a s = 0 then resolve b s else s.pcPlus 3)) := by
  have notTruthy : (!truthy (resolve a s)) = true ↔ resolve a s = 0 := by
    rw [Bool.not_eq_true', ← Bool.not_eq_true, truthy_iff, not_not]
  simp only [exec, execJf, jumpIf_eq_withPc, notTruthy]

theorem next_withPc_inj {s : State} {p q : Word} :
    (Host.Outcome.next (s.withPc p) : Host.Outcome State Fault Refusal) = .next (s.withPc q) ↔
      p = q :=
  ⟨fun h => congrArg State.pc (Host.Outcome.next.inj h), fun h => by rw [h]⟩

/-- JF reaches its target exactly where JT with the same operands falls through, if target and next
instruction differ (R203). -/
theorem exec_jf_taken_iff {a b : Operand} {s : State} (h : resolve b s ≠ s.pcPlus 3) :
    exec (.jf a b) s = .next (s.withPc (resolve b s)) ↔
      exec (.jt a b) s = .next (s.withPc (s.pcPlus 3)) := by
  rw [exec_jf, exec_jt, next_withPc_inj, next_withPc_inj]
  by_cases ha : resolve a s = 0
  · rw [if_pos ha, if_neg (not_not.mpr ha)]
    exact iff_of_true rfl rfl
  · rw [if_neg ha, if_pos ha]
    exact iff_of_false h.symm h

/-! ### CALL -/

/-- CALL below STACK_LIMIT (R150, R204). -/
theorem exec_call_ok {a : Operand} {s : State} (h : s.params.stackLimit ≠ some s.stack.length) :
    exec (.call a) s =
      .next ((s.withStack (s.stack ++ [s.pcPlus 2])).withPc (resolve a s)) := by
  simp only [exec, execCall, push_ok h, Except.map, settle_eq, commit_ok]

/-- CALL at STACK_LIMIT (R150). -/
theorem exec_call_full {a : Operand} {s : State} (h : s.params.stackLimit = some s.stack.length) :
    exec (.call a) s = .next (s.raise .stackOverflow) := by
  simp only [exec, execCall, push_full h, Except.map, settle_eq, commit_error]

/-! ### The statements -/

/-- Settles O22: HALT's handler is the end of the run alone. -/
theorem haltEndsTheRun : Obligations.HaltEndsTheRun :=
  ⟨encodedF0 rfl rfl, fun _ => rfl⟩

/-- Settles O23: JMP's handler sets `pc` alone, and the next fetch checks it. -/
theorem jmpSetsPc : Obligations.JmpSetsPc :=
  ⟨encodedF1 (fun _ => rfl) (fun _ => rfl), fun _ _ => ⟨rfl, faultsAtNextFetch _⟩⟩

/-- Settles O24: the test is the one of `truthy`. -/
theorem jtJumpsOnNonZero : Obligations.JtJumpsOnNonZero :=
  ⟨encodedF2 (fun _ _ => rfl) (fun _ _ => rfl), exec_jt⟩

/-- Settles O25: the test is the negation of `truthy`, so one of JT and JF is taken. -/
theorem jfJumpsOnZero : Obligations.JfJumpsOnZero :=
  ⟨encodedF2 (fun _ _ => rfl) (fun _ _ => rfl), fun a b s => ⟨exec_jf a b s, exec_jf_taken_iff⟩⟩

/-- Settles O26: `Push` appends the return address below the limit and refuses at it. -/
theorem callPushesReturnAddress : Obligations.CallPushesReturnAddress :=
  ⟨encodedF1 (fun _ => rfl) (fun _ => rfl), fun _ _ => ⟨exec_call_ok, exec_call_full⟩⟩

/-- Settles O27: RET looks at the stack before it pops. -/
theorem retPopsPcOrHalts : Obligations.RetPopsPcOrHalts :=
  ⟨encodedF0 rfl rfl, fun _ => ⟨fun _ _ => exec_ret_pop, exec_ret_empty⟩⟩

/-- Settles O28: NOOP's handler is the advance alone. -/
theorem noopOnlyAdvances : Obligations.NoopOnlyAdvances :=
  ⟨encodedF0 rfl rfl, fun _ => rfl⟩

/-- Settles O30: CALL leaves the return address on top of the old stack, where RET finds it; from a fetched
CALL that address does not wrap. -/
theorem callThenRetReturnsAfterCall : Obligations.CallThenRetReturnsAfterCall := by
  intro a s hl hp
  have hret := exec_ret_pop (s := (s.withStack (s.stack ++ [s.pcPlus 2])).withPc (resolve a s))
    (v := s.pcPlus 2) (rest := s.stack) rfl
  exact ⟨_, _, exec_call_ok hl, rfl, hret, State.toNat_pcPlus hp (by omega), rfl, rfl, rfl⟩

end Sys2Proof.Machine

/-! The I/O gateway (R230 to R243) and what the host sees (R241, R251): the four outcomes of a send and of a
receive, said once and used both where OUT or IN begins the rendezvous and where it is suspended already; what a
timeout needs; the ports of a terminal state; the trace record. -/

namespace Sys2Proof.Machine

/-! ### The outcomes of a rendezvous

Each is given in terms of the state `s` before its `io_wait` is set: a suspended state is its own such state
(`withWait_of_eq`), so these cover the first step of OUT and IN and every later one. -/

/-- Outcome Timeout of either rendezvous (R236 c, R238). -/
theorem rendezvous_withWait_expire {s : State} {w : IoWait} (hw : w ≠ .none)
    (h : s.envMove = .expire) : rendezvous (s.withWait w) = s.raise .ioWatchdogTimeout :=
  rendezvous_expire (s := s.withWait w) hw h

/-- Outcome Cancel of either rendezvous (R236 b, R237). -/
theorem unserved_withWait_cancelled {s : State} (h : s.cancel = true) (w : IoWait) :
    unserved (s.withWait w) =
      { s with run := .halted .cancelled, ioWait := .none, outClosed := true } :=
  unserved_cancelled (s := s.withWait w) h

/-- A rendezvous with no outcome yet stays suspended (R236). -/
theorem unserved_withWait_waiting {s : State} (h : s.cancel = false) (w : IoWait) :
    unserved (s.withWait w) = s.withWait w :=
  unserved_waiting (s := s.withWait w) h

/-- Outcome Complete of a send (R236 a, R233). -/
theorem send_take {s : State} (h : s.envMove = .take) (v : Word) :
    send v s = { s with
      output := s.output ++ [v], ioWait := .none, pc := BitVec.ofNat 16 (s.pc.toNat + 2) } :=
  rendezvous_send_take (s := s.withWait (.waitSend v)) rfl h

theorem send_expire {s : State} (h : s.envMove = .expire) (v : Word) :
    send v s = s.raise .ioWatchdogTimeout :=
  rendezvous_withWait_expire (by simp) h

theorem send_unserved {s : State} (h1 : s.envMove ≠ .take) (h2 : s.envMove ≠ .expire) (v : Word) :
    send v s = unserved (s.withWait (.waitSend v)) :=
  rendezvous_send_unserved (s := s.withWait (.waitSend v)) rfl h1 h2

/-- The suspension is none of the fields that `SameRest` compares. -/
theorem SameRest.of_withWait {s t : State} {w : IoWait} (h : SameRest (s.withWait w) t) :
    SameRest s t :=
  ⟨h.run, h.outClosed, h.cancel, h.envMove, h.tick, h.output, h.params⟩

/-- Outcome Complete of a receive, through a well-formed destination (R236 a, R234, R242). -/
theorem receive_give {s : State} {d : Operand} {ch : Word} (hd : d.WellFormed)
    (h : s.envMove = .give ch) (ha : admits s.params ch = true) :
    Stored d ch s (receive d s) ∧ (receive d s).pc = BitVec.ofNat 16 (s.pc.toNat + 2) ∧
      (receive d s).stack = s.stack ∧ (receive d s).ioWait = .none ∧ SameRest s (receive d s) := by
  obtain ⟨t, ht, hstored, hpc, hstack, hwait, hrest⟩ := storeAdvance_ok hd ch 2 (s.withWait .none)
  have hreceive : receive d s = t := by
    have hcomplete := rendezvous_receive_give (s := s.withWait (.waitReceive d)) rfl h ha
    have hidle : (s.withWait (.waitReceive d)).withWait .none = s.withWait .none := rfl
    rw [receive, hcomplete, completeReceive, hidle, ht, commit_ok]
  rw [hreceive]
  exact ⟨hstored.of_eq rfl rfl, hpc, hstack, hwait, hrest.of_withWait⟩

theorem receive_expire {s : State} (h : s.envMove = .expire) (d : Operand) :
    receive d s = s.raise .ioWatchdogTimeout :=
  rendezvous_withWait_expire (by simp) h

theorem receive_unserved {s : State}
    (h1 : ∀ ch, s.envMove = .give ch → admits s.params ch = false) (h2 : s.envMove ≠ .expire)
    (d : Operand) : receive d s = unserved (s.withWait (.waitReceive d)) :=
  rendezvous_receive_unserved (s := s.withWait (.waitReceive d)) rfl h1 h2

/-! ### OUT and IN, begun and suspended -/

theorem exec_out (a : Operand) (s : State) : exec (.out a) s = .next (send (resolve a s) s) := rfl

theorem exec_inp (a : Operand) (s : State) : exec (.inp a) s = .next (receive a s) := rfl

/-- A suspended OUT offers its Word again (R236). -/
theorem step_waitSend {s : State} {v : Word} (hr : s.run = .running)
    (hw : s.ioWait = .waitSend v) : step s = .next (send v s).pollEnv := by
  rw [step_suspended hr (by simp [hw]), send, withWait_of_eq hw]

/-- A suspended IN asks for its character again (R236). -/
theorem step_waitReceive {s : State} {d : Operand} (hr : s.run = .running)
    (hw : s.ioWait = .waitReceive d) : step s = .next (receive d s).pollEnv := by
  rw [step_suspended hr (by simp [hw]), receive, withWait_of_eq hw]

/-- Settles O31: OUT is the send of its resolved operand, in one of its four outcomes. -/
theorem outSendsOrWaits : Obligations.OutSendsOrWaits := by
  refine ⟨encodedF1 (fun _ => rfl) (fun _ => rfl), fun a s =>
    ⟨fun h => ?_, fun h => ?_, fun h1 h2 hc => ?_, fun h1 h2 hc => ?_⟩⟩
  · rw [exec_out, send_take h]
  · rw [RaisesFault, exec_out, send_expire h, raise_eq]
  · rw [exec_out, send_unserved h1 h2, unserved_withWait_cancelled hc]
  · rw [exec_out, send_unserved h1 h2, unserved_withWait_waiting hc, State.withWait]

/-- Settles O32: IN is the receive through its operand, in one of its four outcomes. -/
theorem inReceivesOrWaits : Obligations.InReceivesOrWaits := by
  refine ⟨encodedF1 (fun _ => rfl) (fun _ => rfl), fun _ _ => admits_iff, fun a s hwf =>
    ⟨fun ch h ha => ?_, fun h => ?_, fun h1 h2 hc => ?_, fun h1 h2 hc => ?_⟩⟩
  · have hd : a.WellFormed := wellFormed_of_mem_operands hwf List.mem_cons_self
    exact ⟨_, exec_inp a s, receive_give hd h ha⟩
  · rw [RaisesFault, exec_inp, receive_expire h, raise_eq]
  · rw [exec_inp, receive_unserved h1 h2, unserved_withWait_cancelled hc]
  · rw [exec_inp, receive_unserved h1 h2, unserved_withWait_waiting hc, State.withWait]

/-- Settles O33: the suspension is the send taken up again, and a send that still waits is the same state. -/
theorem suspendedSendTakesOneOutcome : Obligations.SuspendedSendTakesOneOutcome := by
  intro s v hr hw
  rw [step_waitSend hr hw]
  refine ⟨fun h => ?_, fun h => ?_, fun h1 h2 hc => ?_, fun h1 h2 hc => ?_⟩
  · rw [send_take h]
  · rw [send_expire h, raise_eq]
  · rw [send_unserved h1 h2, unserved_withWait_cancelled hc]
  · rw [send_unserved h1 h2, unserved_withWait_waiting hc, withWait_of_eq hw]

/-- Settles O34: the suspension is the receive taken up again, and a receive that still waits is the same
state. -/
theorem suspendedReceiveTakesOneOutcome : Obligations.SuspendedReceiveTakesOneOutcome := by
  intro s d hr hw hd
  rw [step_waitReceive hr hw]
  refine ⟨fun ch h ha => ?_, fun h => ?_, fun h1 h2 hc => ?_, fun h1 h2 hc => ?_⟩
  · exact ⟨_, rfl, receive_give hd h ha⟩
  · rw [receive_expire h, raise_eq]
  · rw [receive_unserved h1 h2, unserved_withWait_cancelled hc]
  · rw [receive_unserved h1 h2, unserved_withWait_waiting hc, withWait_of_eq hw]

/-! ### What a timeout needs -/

/-- A rendezvous that times out found the watchdog's expiry (R238). -/
theorem Rendezvous.expire_of_timeout {s u : State} (h : Rendezvous s u) (hr : s.run = .running)
    (hu : u.run = .faulted .ioWatchdogTimeout) : s.envMove = .expire := by
  cases h with
  | raise k hk =>
    cases hu
    rcases hk with ⟨_, hm⟩ | ⟨hk, _⟩
    · exact hm
    · cases hk
  | cancel _ => cases hu
  | persist _ | sent _ _ _ | reg _ _ _ _ | cell _ _ _ _ _ => cases hr.symm.trans hu

/-- No instruction's own condition is the watchdog's (R264, R271). -/
theorem not_ownFault_ioWatchdogTimeout (i : Instr) : ¬ OwnFault i .ioWatchdogTimeout := by
  cases i <;> nofun

/-- An instruction that times out is an OUT or an IN, and found the watchdog's expiry. -/
theorem Effect.expire_of_timeout {i : Instr} {s u : State} (h : Effect i s u)
    (hr : s.run = .running) (hu : u.run = .faulted .ioWatchdogTimeout) :
    s.envMove = .expire ∧ ∃ a, i = .out a ∨ i = .inp a := by
  cases h with
  | raise k hk =>
    cases hu
    rcases hk with hk | ⟨hk, _⟩
    · exact absurd hk (not_ownFault_ioWatchdogTimeout i)
    · cases hk
  | halt _ | emptyReturn _ _ => cases hu
  | send a hi => exact ⟨(send_cases _ s).expire_of_timeout hr hu, a, .inl hi⟩
  | receive a hi => exact ⟨(receive_cases a s).expire_of_timeout hr hu, a, .inr hi⟩
  | move _ _ _ _ | reg _ _ _ _ _ _ | cell _ _ _ _ _ _ _ | wmem _ _ _ _ _ =>
    cases hr.symm.trans hu

/-- Fetch and decode do not time out (R122 to R124). -/
theorem fetchInstr_ne_timeout (s : State) : fetchInstr s ≠ .error .ioWatchdogTimeout := by
  unfold fetchInstr
  rcases Nat.lt_or_ge 32764 s.pc.toNat with h | h
  · rw [fetch_out h]
    nofun
  · rw [fetch_ok h]
    dsimp only
    split
    · next e _ => cases e <;> nofun
    · nofun

/-- Settles O35: of what a step can do, only a rendezvous, suspended or begun by OUT or IN, times out, and it
does so on the watchdog's expiry. -/
theorem timeoutNeedsWatchdogExpiry : Obligations.TimeoutNeedsWatchdogExpiry := by
  intro s t h ht
  obtain ⟨hr, u, rfl, hu⟩ := step_cases h
  rcases hu with ⟨hw, rfl⟩ | ⟨_, _, rfl⟩ | ⟨_, _, k, hf, rfl⟩ | ⟨_, _, i, hf, hx⟩
  · exact ⟨not_not_intro ((rendezvous_cases hw).expire_of_timeout hr ht), .inl hw⟩
  · cases ht
  · cases ht
    exact absurd hf (fetchInstr_ne_timeout s)
  · obtain ⟨hm, a, hi⟩ := (exec_effect hx).expire_of_timeout hr ht
    refine ⟨not_not_intro hm, .inr ⟨a, ?_⟩⟩
    rcases hi with rfl | rfl
    · exact .inl hf
    · exact .inr hf

/-! ### What the host sees -/

theorem State.outData_of_idle {s : State} (h : s.ioWait = .none) : s.outData = none := by
  simp only [State.outData, h]

theorem State.inReq_of_idle {s : State} (h : s.ioWait = .none) : s.inReq = false := by
  simp only [State.inReq, h]

/-- No rendezvous outlives its run (R39). -/
theorem State.Inv.idle_of_terminal {s : State} (h : s.Inv) (hr : s.run ≠ .running) :
    s.ioWait = .none :=
  not_imp_comm.mp h.waiting hr

theorem step_terminal {s : State} (h : s.run ≠ .running) : ∃ f, step s = .fault f := by
  cases hr : s.run with
  | running => exact absurd hr h
  | halted r => exact ⟨_, step_halted hr⟩
  | faulted k => exact ⟨_, step_faulted hr⟩

/-- Settles O59: the invariant closes the output and leaves no rendezvous suspended, and the ports show only
a suspended one. -/
theorem terminalPortsAreQuiet : Obligations.TerminalPortsAreQuiet := by
  intro s hs hr
  have hidle := hs.idle_of_terminal hr
  exact ⟨hs.closed.mpr hr, s.outData_of_idle hidle, s.inReq_of_idle hidle, step_terminal hr⟩

/-- A boundary at which no stop is taken and an instruction is fetched begins it (R130). -/
theorem turn_issue {s : State} {i : Instr} (hb : Boundary s) (hs : stopsAtBoundary s = false)
    (hf : fetchInstr s = .ok i) : turn s = .issue i := by
  obtain ⟨hr, hw⟩ := hb
  simp [turn, hr, hw, hs, hf]

/-- The record of a state that begins `i` (R251). -/
theorem traceRecord_of_turn {s : State} {i : Instr} (h : turn s = .issue i) :
    s.traceRecord = some
      { pc := s.pc, regs := s.x, mnemonic := i.mnemonic, operands := i.operands,
        stackTopFirst := s.stack.reverse } := by
  simp only [State.traceRecord, h]

/-- Settles O60: without a stop the turn issues what is fetched, and the record is that turn's. -/
theorem traceRecordHoldsTheFields : Obligations.TraceRecordHoldsTheFields := by
  intro s i hb hstop hf
  have hturn := turn_issue hb (stopsAtBoundary_eq_false_iff.mpr hstop) hf
  exact ⟨_, traceRecord_of_turn hturn, rfl, fun _ => rfl, rfl, rfl, rfl⟩

end Sys2Proof.Machine

/-! Exceptions (R260 to R271): every fault is the one operation of R260 on the state the step began in; the order
in which a boundary's conditions are reported, and each instruction's own condition; the images that are refused
before execution (R270, R292); the status codes (R261). -/

namespace Sys2Proof.Machine

/-! ### Faults are precise -/

/-- A running state's effect that faults is `raise Fault(k)` itself (R260). -/
theorem StepEffect.eq_raise {s u : State} {k : FaultKind} (hr : s.run = .running)
    (h : StepEffect s u) (hu : u.run = .faulted k) : u = s.raise k := by
  cases h with
  | raise k' => cases hu; rfl
  | halt _ _ => cases hu
  | wait _ _ | sent _ _ | move _ _ _ _ | reg _ _ _ _ _ _ | cell _ _ _ _ _ _ _
  | wmem _ _ _ _ _ _ => cases hr.symm.trans hu

/-- Settles O42: the one effect that faults changes the run state, the suspension and the output's closing
alone. -/
theorem faultsArePrecise : Obligations.FaultsArePrecise := by
  intro s t k h ht
  obtain ⟨hr, u, rfl, hu⟩ := step_effect h
  obtain rfl := hu.eq_raise hr ht
  exact ⟨rfl, rfl, rfl, rfl, rfl, rfl, rfl, rfl, step_faulted ht⟩

/-! ### The order of a boundary's conditions -/

/-- A fetched window that is no instruction gives its fault (R97, R124). -/
theorem fetchInstr_of_decode_error {s : State} {w : Window} {e : DecodeError}
    (hf : fetch s = .ok w) (hd : decode w = .error e) : fetchInstr s = .error (decodeFault e) := by
  simp only [fetchInstr, hf, hd]

/-- A window that names an instruction fails the operand check where a slot that its opcode uses holds
32776 or more (R93, R124). -/
theorem Names.not_validSlots_iff {w : Window} {i : Instr} (h : Names w i) :
    ¬ ValidSlots (slots w i.operands.length) ↔
      ∃ n, arityOf w.op = some n ∧ ∃ v ∈ [w.a, w.b, w.c].take n, 32776 ≤ v.toNat := by
  have above (k : Nat) : 32776 ≤ k ↔ 32775 < k := Nat.succ_le_iff
  simp [h.arityOf_eq, ValidSlots, slots, above]

/-! ### An instruction's own condition -/

/-- The destination of an instruction is one of its operands (R94). -/
theorem mem_operands_of_destOf {i : Instr} {d : Operand} (h : destOf i = some d) :
    d ∈ i.operands := by
  cases i with
  | set _ _ | pop _ | eq _ _ _ | gt _ _ _ | add _ _ _ | mult _ _ _ | mod _ _ _ | and _ _ _
  | or _ _ _ | not _ _ | rmem _ _ | inp _ => cases h; exact List.mem_cons_self
  | halt | push _ | jmp _ | jt _ _ | jf _ _ | wmem _ _ | call _ | ret | out _ | noop => cases h

/-- A literal destination of a well-formed instruction lies inside memory (R64, R93). -/
theorem destOf_lit_lt {i : Instr} {w : Word} (h : i.WellFormed) (hd : destOf i = some (.lit w)) :
    w.toNat < 32768 :=
  Operand.wellFormed_lit.mp (wellFormed_of_mem_operands h (mem_operands_of_destOf hd))

/-- A rendezvous whose literal destination, if it has one, lies inside memory faults by its watchdog alone
(R236, R264). -/
theorem Rendezvous.eq_timeout {s u : State} {k : FaultKind} (h : Rendezvous s u)
    (hr : s.run = .running) (hd : ∀ w : Word, s.ioWait = .waitReceive (.lit w) → w.toNat < 32768)
    (hu : u.run = .faulted k) : k = .ioWatchdogTimeout := by
  cases h with
  | raise k' hk =>
    cases hu
    rcases hk with ⟨hk, _⟩ | ⟨_, w, hw, hout⟩
    · exact hk
    · exact absurd (hd w hw) (Nat.not_lt.mpr hout)
  | cancel _ => cases hu
  | persist _ | sent _ _ _ | reg _ _ _ _ | cell _ _ _ _ _ => cases hr.symm.trans hu

/-- A well-formed instruction that faults does so by its own condition, or is an OUT or IN that timed out
(R271). -/
theorem Effect.fault_kind {i : Instr} {s u : State} {k : FaultKind} (h : Effect i s u)
    (hwf : i.WellFormed) (hr : s.run = .running) (hu : u.run = .faulted k) :
    OwnFault i k ∨ k = .ioWatchdogTimeout ∧ ∃ a, i = .out a ∨ i = .inp a := by
  cases h with
  | raise k' hk =>
    cases hu
    rcases hk with hk | ⟨_, w, hd, hout⟩
    · exact .inl hk
    · exact absurd (destOf_lit_lt hwf hd) (Nat.not_lt.mpr hout)
  | halt _ | emptyReturn _ _ => cases hu
  | send a hi =>
    have timeout : k = .ioWatchdogTimeout := (send_cases _ s).eq_timeout hr nofun hu
    exact .inr ⟨timeout, a, .inl hi⟩
  | receive a hi =>
    have inside (w : Word) (hw : IoWait.waitReceive a = .waitReceive (.lit w)) : w.toNat < 32768 :=
      destOf_lit_lt hwf (by cases hw; cases hi; rfl)
    have timeout : k = .ioWatchdogTimeout := (receive_cases a s).eq_timeout hr inside hu
    exact .inr ⟨timeout, a, .inr hi⟩
  | move _ _ _ _ | reg _ _ _ _ _ _ | cell _ _ _ _ _ _ _ | wmem _ _ _ _ _ =>
    cases hr.symm.trans hu

/-- Settles O39: each test of the chain sends the boundary's step to one rule of the cycle; what the handler
of a well-formed instruction raises after that is its own. -/
theorem faultPriority : Obligations.FaultPriority := by
  constructor
  · rintro s ⟨hr, hw⟩ w raised
    split
    · next hstop => exact step_stop hr hw (stopsAtBoundary_iff.mpr hstop)
    next hstop =>
    have hgo : stopsAtBoundary s = false := stopsAtBoundary_eq_false_iff.mpr (not_and.mp hstop)
    split
    · next hpc => exact step_raise hr hw hgo (by simp only [fetchInstr, fetch_out hpc])
    next hpc =>
    have hf : fetch s = .ok w := fetch_ok (Nat.not_lt.mp hpc)
    split
    · next hop =>
      exact step_raise hr hw hgo (fetchInstr_of_decode_error hf (decode_of_opcode_gt hop))
    next hop =>
    obtain ⟨i, hi⟩ := exists_names (Nat.not_lt.mp hop)
    have hcheck := hi.not_validSlots_iff
    split
    · next hbad =>
      exact hi.raisesInvalidOperand (hcheck.mpr hbad) s ⟨hr, hw⟩ (not_and.mp hstop) hf
    · next hgood =>
      have hvalid : ValidSlots (slots w i.operands.length) := not_imp_comm.mp hcheck.mp hgood
      have hd : decode w = .ok i := hi.decode_eq_ok hvalid
      exact ⟨i, hd, step_issue hr hw hgo (fetchInstr_eq_ok.mpr ⟨Nat.not_lt.mp hpc, hd⟩)⟩
  · intro i s t k hwf hr hx ht
    rcases (exec_effect hx).fault_kind hwf hr ht with hown | ⟨rfl, a, rfl | rfl⟩
    · cases i with
      | out _ | inp _ => exact hown.elim
      | pop _ | rmem _ _ | wmem _ _ | mod _ _ _ | push _ | call _ | halt | set _ _
      | eq _ _ _ | gt _ _ _ | jmp _ | jt _ _ | jf _ _ | add _ _ _ | mult _ _ _ | and _ _ _ | or _ _ _
      | not _ _ | ret | noop => exact hown
    · rfl
    · rfl

/-! ### Loading -/

section Load

variable (p : Params) (c : Bool) (m : EnvMove) {bs : List Byte}

/-- An even image that fits is loaded (R291). -/
theorem load_even (hl : bs.length ≤ 65536) (h : bs.length % 2 = 0) :
    load p c m (.bytes bs) = .ok (loadedState p c m bs) := by
  have hfits : ¬ bs.length > 2 * 32768 := Nat.not_lt.mpr hl
  have heven : ¬ bs.length % 2 = 1 := by omega
  simp only [load, Config.memWords, if_neg hfits, if_neg heven]

/-- An odd image that fits is refused (R270, R292). -/
theorem load_odd (hl : bs.length ≤ 65536) (h : bs.length % 2 = 1) :
    load p c m (.bytes bs) = .error .oddLength := by
  have hfits : ¬ bs.length > 2 * 32768 := Nat.not_lt.mpr hl
  simp only [load, Config.memWords, if_neg hfits, if_pos h]

/-- A too long image is refused under Reject (R292). -/
theorem load_oversize_reject (hl : 65536 < bs.length) (hp : p.oversizeImage = .reject) :
    load p c m (.bytes bs) = .error .oversize := by
  have hlong : bs.length > 2 * 32768 := hl
  simp only [load, Config.memWords, if_pos hlong, hp]

/-- A too long image under Truncate loads its first 65536 bytes (R292). -/
theorem load_oversize_truncate (hl : 65536 < bs.length) (hp : p.oversizeImage = .truncate) :
    load p c m (.bytes bs) = .ok (loadedState p c m (bs.take 65536)) := by
  have hlong : bs.length > 2 * 32768 := hl
  simp only [load, Config.memWords, if_pos hlong, hp]

end Load

/-- Settles O57: the length and the parameter choose the Loader's case, and the first 65536 bytes of a too
long image are an even image that fits. -/
theorem loadFailuresAndTruncation : Obligations.LoadFailuresAndTruncation := by
  refine fun p c m => ⟨⟨_, rfl⟩, fun bs hodd hl => ⟨_, load_odd p c m hl hodd⟩,
    fun bs hl hp => ⟨_, load_oversize_reject p c m hl hp⟩, fun bs hl _ hp => ?_⟩
  have hlen : (bs.take 65536).length = 65536 := List.length_take_of_le hl.le
  exact ⟨_, load_oversize_truncate p c m hl hp, load_even p c m hlen.le (by rw [hlen])⟩

/-! ### The status codes -/

/-- Settles O58: the codes of the table, read from each run state. -/
theorem statusCodes : Obligations.StatusCodes :=
  ⟨rfl, fun _ => rfl⟩

end Sys2Proof.Machine

/-! What stands in the state after loading: the image's Words from address 0 and reset values elsewhere (R291,
R44), in memory's canonical form (R33). -/

namespace Sys2Proof.Machine

/-! ### The Words of an image in memory -/

/-- A Word made of two bytes is their little-endian value, which fits 16 bits (R65). -/
theorem toNat_joinBytes (lo hi : Byte) : (joinBytes lo hi).toNat = lo.toNat + 256 * hi.toNat := by
  have hlo := lo.isLt
  have hhi := hi.isLt
  rw [joinBytes, BitVec.toNat_ofNat, Nat.mod_eq_of_lt (by omega)]

section LoadedState

variable (p : Params) (c : Bool) (m : EnvMove) {bs : List Byte}

/-- Word `k` of the loaded memory is Word `k` of the image, or 0 past its end (R291). -/
theorem readWord_loadedState (bs : List Byte) (k : Nat) :
    (loadedState p c m bs).mem.readWord k =
      if h : k < (wordsOfBytes bs).length then (wordsOfBytes bs)[k] else 0 := by
  simp [loadedState, readWord_storeWords, Memory.readWord_nil]

/-- A Word of the image has the value of its two bytes, low byte first (R291). -/
theorem toNat_readWord_loadedState {k : Nat} (h : 2 * k + 1 < bs.length) :
    ((loadedState p c m bs).mem.readWord k).toNat = bs[2 * k].toNat + 256 * bs[2 * k + 1].toNat := by
  have hk : k < (wordsOfBytes bs).length := by rw [length_wordsOfBytes]; omega
  rw [readWord_loadedState, dif_pos hk, getElem_wordsOfBytes bs k h, toNat_joinBytes]

/-- A Word past the image keeps its reset value (R291, R44). -/
theorem readWord_loadedState_past {k : Nat} (h : bs.length ≤ 2 * k) :
    (loadedState p c m bs).mem.readWord k = 0 := by
  have hk : ¬ k < (wordsOfBytes bs).length := by rw [length_wordsOfBytes]; omega
  rw [readWord_loadedState, dif_neg hk]

/-- Loading leaves the registers at reset (R44). -/
theorem reg_loadedState (bs : List Byte) (i : Fin 8) : (loadedState p c m bs).reg i = 0 :=
  State.reset_reg i

/-! ### The invariant after loading -/

/-- The memory of an image that fits is canonical (R33). -/
theorem wf_mem_loadedState (hl : bs.length ≤ 65536) : (loadedState p c m bs).mem.wf := by
  have hfits : 0 + (wordsOfBytes bs).length ≤ 32768 := by rw [length_wordsOfBytes]; omega
  exact wf_storeWords (wordsOfBytes bs) [] 0 Memory.wf_nil hfits

/-- The state with an image that fits meets the invariant, under every STACK_LIMIT: its stack is empty. -/
theorem inv_loadedState (hl : bs.length ≤ 65536) : (loadedState p c m bs).Inv :=
  .of_ioWait_none rfl (wf_mem_loadedState p c m hl) (by simp [loadedState, State.reset])
    fun n _ => Nat.zero_le n

/-- A load that succeeds holds bytes that fit: the image, or its first 65536 bytes (R291, R292). -/
theorem load_eq_ok {img : Image} {s : State} (h : load p c m img = .ok s) :
    ∃ bs : List Byte, bs.length ≤ 65536 ∧ s = loadedState p c m bs := by
  cases img with
  | unreadable => cases h
  | bytes bs =>
    rcases Nat.lt_or_ge 65536 bs.length with hlong | hfits
    · cases hp : p.oversizeImage with
      | truncate =>
        rw [load_oversize_truncate p c m hlong hp] at h
        cases h
        exact ⟨bs.take 65536, List.length_take_le 65536 bs, rfl⟩
      | reject =>
        rw [load_oversize_reject p c m hlong hp] at h
        cases h
    · rcases Nat.mod_two_eq_zero_or_one bs.length with heven | hodd
      · rw [load_even p c m hfits heven] at h
        cases h
        exact ⟨bs, hfits, rfl⟩
      · rw [load_odd p c m hfits hodd] at h
        cases h

end LoadedState

/-- Settles O47: whichever case of the Loader succeeds, what it stores fits memory. -/
theorem loadedStateSatisfiesInvariant : Obligations.LoadedStateSatisfiesInvariant := by
  intro p c m img s h
  obtain ⟨bs, hl, rfl⟩ := load_eq_ok p c m h
  exact inv_loadedState p c m hl

/-- Settles O56: memory holds the image's Words and 0 past them; the other fields are those of reset or the
host's. -/
theorem loadPlacesImageLittleEndian : Obligations.LoadPlacesImageLittleEndian := by
  intro p c m bs heven hl
  exact ⟨loadedState p c m bs, load_even p c m hl heven,
    fun _ h => toNat_readWord_loadedState p c m h, fun _ h => readWord_loadedState_past p c m h,
    reg_loadedState p c m bs, rfl, rfl, rfl, rfl, rfl, rfl, rfl⟩

end Sys2Proof.Machine
